-- ==== Sys2Proof/Word.lean ====
section
/-! DEFINITION. The bit-vector types of the block (R9, R11): command words, bytes, nibbles and bit indices.
Bit 0 is the least significant bit, as `BitVec.getLsbD` numbers them. -/

namespace Sys2Proof

/-- A command word (R70). -/
abbrev Word := BitVec 16

/-- A byte: the shadow register, the external register's two stages, a byte sent, `RESP` (R9). -/
abbrev Byte := BitVec 8

/-- A nibble (R9). -/
abbrev Nibble := BitVec 4

/-- A bit index 0..7 into the shadow register and the outputs (R9, R35). -/
abbrev BitIndex := BitVec 3

end Sys2Proof
end

