-- ==== Sys2Proof/Config.lean ====
section
/-! DEFINITION. What is fixed for one machine (R10): the pin map, the timing minimums, the row table, the
HD44780 command bytes the host layer takes as a parameter, and the free values (constants with no body). -/

namespace Sys2Proof

/-- The pin-role map `PM` (R24): seven 3-bit indices into `S` and the outputs. Every value 0..7 is legal in
every field, and nothing checks that they are distinct (R25). -/
structure PinMap where
  led : BitIndex
  rs : BitIndex
  en : BitIndex
  d0 : BitIndex
  d1 : BitIndex
  d2 : BitIndex
  d3 : BitIndex
deriving DecidableEq, Repr

/-- The default map (R24): led=2, registerSelect=1, enable=3, data0..3=4..7. -/
def PinMap.default : PinMap :=
  { led := 2, rs := 1, en := 3, d0 := 4, d1 := 5, d2 := 6, d3 := 7 }

namespace Config

/-! Durations are natural numbers of nanoseconds and lower bounds (R10, R41). -/

/-- `T_HOLD` (R10): the hold after each line write of a push. -/
def tHold : Nat := 1000
/-- `T_EN_MIN` (R10, R283): the least width of the enable pulse. -/
def tEnMin : Nat := 450
/-- `T_SETTLE` (R10, R121, R282): the settle after each strobe. -/
def tSettle : Nat := 50000
/-- `T_CLEAR` (R10, R284): the wait after clear and home. -/
def tClear : Nat := 2000000
/-- `T_POWER` (R10, R286; C1 of 90_conflicts.md): from power-up to the first strobe. -/
def tPower : Nat := 100000000
/-- `T_NEG` (R10, R286): the delays after the three raw 0x03 nibbles. -/
def tNeg1 : Nat := 5000000
/-- The second of `T_NEG` (R10, R286). -/
def tNeg2 : Nat := 5000000
/-- The third of `T_NEG` (R10, R286). -/
def tNeg3 : Nat := 1000000

/-- `ROW_BASE` (R212). -/
def rowBase : Fin 4 → Byte
  | 0 => 0x00
  | 1 => 0x40
  | 2 => 0x14
  | 3 => 0x54

/-- `SHADOW_RESET` (R22): OPEN, so a constant nothing can evaluate. DESIGN CHOICE, safe: log 1. -/
opaque shadowReset : Byte
/-- `SR_POWERUP` (R30): an OPEN draw. DESIGN CHOICE, safe: log 1. -/
opaque srPowerup : Byte
/-- `Q_POWERUP` (R30): an OPEN draw. DESIGN CHOICE, safe: log 1. -/
opaque qPowerup : Byte

/-- The RS value of the `n`-th record the observer cannot tell (R250, "any rs"): a free value. DESIGN CHOICE,
log 3: safe within one run, unsafe for a claim that compares two runs. -/
opaque drawRs : Nat → Bool
/-- The nibble of the `n`-th record the observer cannot tell (R250, "any nib"): a free value. DESIGN CHOICE,
log 3: safe within one run, unsafe for a claim that compares two runs. -/
opaque drawNib : Nat → Nibble

/-- The HD44780 command bytes (R201): OPEN parameters of the host layer, each a total function of its
arguments. The host layer takes the record as an argument; no value of it is fixed (log 11). -/
structure CommandBytes where
  /-- `FUNCSET_CMD(two_line, font10)` -/
  funcset : Bool → Bool → Byte
  /-- `DISPCTL_CMD(display, cursor, blink)` -/
  dispctl : Bool → Bool → Bool → Byte
  /-- `ENTRY_CMD(ltr, autoscroll)` -/
  entry : Bool → Bool → Byte
  /-- `OP_CLEAR` -/
  clear : Byte
  /-- `OP_HOME` -/
  home : Byte
  /-- `SHIFT_CMD(right)` -/
  shift : Bool → Byte
  /-- `DDRAM_CMD(addr)` -/
  ddram : Byte → Byte
  /-- `CGRAM_CMD(addr)` -/
  cgram : BitVec 6 → Byte

end Config

end Sys2Proof
end

