-- ==== Sys2Proof/Syntax.lean ====
section
/-! DEFINITION. The block's operations, one constructor per row of spec/opcode_table.json (R71), and the source
statements of the assembler, which add the two pseudo-instructions and unbounded operands (R76, R77). -/

namespace Sys2Proof

/-- The unit bit `u` of `DELAY` (R72): 0 = microseconds, 1 = milliseconds. -/
inductive DelayUnit where
  | us
  | ms
deriving DecidableEq, Repr

/-- The nine operations. Each field has exactly the width its encoding gives it (R71, R72). -/
inductive Instr where
  /-- `PUSH` (R102) -/
  | push
  /-- `SETBIT idx, v` (R103) -/
  | setbit (idx : BitIndex) (v : Bool)
  /-- `WNIB n` (R120); only `n[3:0]` is used -/
  | wnib (n : Byte)
  /-- `PULSE` (R123) -/
  | pulse
  /-- `SEND b, d` (R140); `d` = 0 command, 1 data -/
  | send (b : Byte) (d : Bool)
  /-- `LEDON` (R162) -/
  | ledon
  /-- `LEDOFF` (R163) -/
  | ledoff
  /-- `FIDLE` (R124) -/
  | fidle
  /-- `DELAY t` (R160); `c` = 0..2047 -/
  | delay (u : DelayUnit) (c : BitVec 11)
deriving DecidableEq, Repr

/-- The mnemonic of an operation, as the opcode table spells it (R71). -/
def Instr.mnemonic : Instr → String
  | .push => "PUSH"
  | .setbit _ _ => "SETBIT"
  | .wnib _ => "WNIB"
  | .pulse => "PULSE"
  | .send _ _ => "SEND"
  | .ledon => "LEDON"
  | .ledoff => "LEDOFF"
  | .fidle => "FIDLE"
  | .delay _ _ => "DELAY"

/-- `CMD b` is `SEND b, 0` (R77). -/
abbrev Instr.cmd (b : Byte) : Instr := .send b false

/-- `WRITE b` is `SEND b, 1` (R77). -/
abbrev Instr.write (b : Byte) : Instr := .send b true

/-- A statement of the assembler (R76, R77), its operands the numbers written in the text. -/
inductive Asm where
  | push
  | setbit (idx v : Nat)
  | wnib (n : Nat)
  | pulse
  | send (b d : Nat)
  | ledon
  | ledoff
  | fidle
  | delay (u : DelayUnit) (c : Nat)
  /-- the pseudo-instruction `CMD b` -/
  | cmd (b : Nat)
  /-- the pseudo-instruction `WRITE b` -/
  | write (b : Nat)
deriving DecidableEq, Repr

end Sys2Proof
end

