-- ==== Sys2Proof/WellFormed.lean ====
section
/-! DEFINITION. The checks on data that is given to the model: a word is legal (R73, R74), an assembler
statement's operands fit their fields (R76, R77), a pin map is distinct (R285). An `Instr` needs no check of its
own: each of its fields has the width of its encoding. -/

namespace Sys2Proof

/-- One row of the opcode table: a word selects it when `word & mask = match` (R73). -/
structure OpcodeRow where
  mnemonic : String
  mask : Word
  bits : Word
deriving DecidableEq, Repr

/-- The rows of spec/opcode_table.json, with the masks and patterns of R71 and R73. -/
def opcodeTable : List OpcodeRow :=
  [ ⟨"PUSH", 0xFFFF, 0x1000⟩, ⟨"SETBIT", 0xFFF0, 0x2000⟩, ⟨"WNIB", 0xFF00, 0x3000⟩,
    ⟨"PULSE", 0xFFFF, 0x4000⟩, ⟨"SEND", 0xFE00, 0x5000⟩, ⟨"LEDON", 0xFFFF, 0x6000⟩,
    ⟨"LEDOFF", 0xFFFF, 0x7000⟩, ⟨"FIDLE", 0xFFFF, 0x8000⟩, ⟨"DELAY", 0xF000, 0x9000⟩ ]

/-- The row selects the word (R73). -/
def OpcodeRow.selects (r : OpcodeRow) (w : Word) : Bool := w &&& r.mask == r.bits

/-- A word is legal when some row selects it (R73, R74). The decoder does not use this; it is the table's own
account of which words are legal. -/
def legalWord (w : Word) : Bool := opcodeTable.any (·.selects w)

/-- The operands of an assembler statement fit their fields (R72). For a `DELAY` whose count does not fit in 11 bits
R77 states the refusal. For a number that does not fit the field of `SETBIT`, `WNIB`, `SEND`, `CMD` or `WRITE` the spec
states nothing (R58 and R120 speak of the 8-bit operand of the word, whose upper four bits are ignored): that it is
refused too, and not cut to the field, is a DESIGN CHOICE, log 17. -/
def Asm.WellFormed : Asm → Bool
  | .push | .pulse | .ledon | .ledoff | .fidle => true
  | .setbit idx v => decide (idx < 8) && decide (v < 2)
  | .wnib n => decide (n < 256)
  | .send b d => decide (b < 256) && decide (d < 2)
  | .delay _ c => decide (c < 2048)
  | .cmd b => decide (b < 256)
  | .write b => decide (b < 256)

/-- The seven indices of a map, in the order of R24. -/
def PinMap.indices (pm : PinMap) : List BitIndex := [pm.led, pm.rs, pm.en, pm.d0, pm.d1, pm.d2, pm.d3]

/-- The seven fields are pairwise distinct (R25, R285): a premise of claims, not a check of the machine. -/
def PinMap.Distinct (pm : PinMap) : Prop := pm.indices.Nodup

/-- The bits no role maps: `S[0]` under the default map (R27). -/
abbrev PinMap.Unmapped (pm : PinMap) (i : BitIndex) : Prop := i ∉ pm.indices

end Sys2Proof
end

