-- ==== Sys2Proof/Decode.lean ====
section
/-! DEFINITION. The decoder (R70 to R75): total on every 16-bit word, an illegal word named by its reason. After
it the encoder, from the same layout. -/

namespace Sys2Proof

/-- Why a word is illegal (R74). -/
inductive Illegal where
  /-- opcode 0x0 or 0xA..0xF -/
  | noOperation
  /-- a reserved bit of the opcode's row is 1 -/
  | reservedBit
deriving DecidableEq, Repr

/-- What a word decodes to: exactly one operation, or illegal (R75). -/
inductive Decoded where
  | op (i : Instr)
  | illegal (why : Illegal)
deriving DecidableEq, Repr

/-- The opcode, bits [15:12] (R70). -/
def opcodeOf (w : Word) : BitVec 4 := w.extractLsb' 12 4

/-- `u` of `DELAY` from its bit (R72). -/
def unitOfBit (u : Bool) : DelayUnit := if u then .ms else .us

/-- The bit of a delay unit (R72). -/
def DelayUnit.bit : DelayUnit → Bool
  | .us => false
  | .ms => true

/-- An operation whose reserved bits must be 0. -/
def ifReserved (zero : Bool) (i : Instr) : Decoded := if zero then .op i else .illegal .reservedBit

/-- The decoder (R71 to R75). -/
def decode (w : Word) : Decoded :=
  match opcodeOf w with
  | 0x1#4 => ifReserved (w.extractLsb' 0 12 == 0) .push
  | 0x2#4 => ifReserved (w.extractLsb' 4 8 == 0) (.setbit (w.extractLsb' 0 3) (w.getLsbD 3))
  | 0x3#4 => ifReserved (w.extractLsb' 8 4 == 0) (.wnib (w.extractLsb' 0 8))
  | 0x4#4 => ifReserved (w.extractLsb' 0 12 == 0) .pulse
  | 0x5#4 => ifReserved (w.extractLsb' 9 3 == 0) (.send (w.extractLsb' 0 8) (w.getLsbD 8))
  | 0x6#4 => ifReserved (w.extractLsb' 0 12 == 0) .ledon
  | 0x7#4 => ifReserved (w.extractLsb' 0 12 == 0) .ledoff
  | 0x8#4 => ifReserved (w.extractLsb' 0 12 == 0) .fidle
  | 0x9#4 => .op (.delay (unitOfBit (w.getLsbD 11)) (w.extractLsb' 0 11))
  | _ => .illegal .noOperation

/-- The encoder: the formula each operation's rule gives (R102, R103, R120, R123, R124, R140, R160, R162, R163). -/
def encode : Instr → Word
  | .push => 0x1000
  | .setbit idx v => 0x2000 ||| ((BitVec.ofBool v).setWidth 16 <<< 3) ||| idx.setWidth 16
  | .wnib n => 0x3000 ||| n.setWidth 16
  | .pulse => 0x4000
  | .send b d => 0x5000 ||| ((BitVec.ofBool d).setWidth 16 <<< 8) ||| b.setWidth 16
  | .ledon => 0x6000
  | .ledoff => 0x7000
  | .fidle => 0x8000
  | .delay u c => 0x9000 ||| ((BitVec.ofBool u.bit).setWidth 16 <<< 11) ||| c.setWidth 16

/-- The word of an instruction numbered as the opcode table numbers it; bits from `nbits` up are 0 (R70: every
instruction is one 16-bit word). -/
def tableWord (nbits w : Nat) : Word := BitVec.ofNat 16 (w % 2 ^ nbits)

/-- The instruction the decoder reads from the table's word, none where the word is illegal. -/
def decodeTableWord (nbits w : Nat) : Option Instr :=
  match decode (tableWord nbits w) with
  | .op i => some i
  | .illegal _ => none

end Sys2Proof
end

