-- ==== Sys2Proof/Machine/State.lean ====
section
/-! DEFINITION. The complete state of R42, as plain data, with the reasons a step can stop and the state after
reset (R270). -/

namespace Sys2Proof.Machine

/-- An event of the trace (R40). -/
inductive Event where
  | setData (v : Bool)
  | setClk (v : Bool)
  | setLat (v : Bool)
  /-- the block blocks for at least `ns` nanoseconds -/
  | wait (ns : Nat)
deriving DecidableEq, Repr

/-- A record of the display observer (R250): the RS level and the nibble strobed. -/
structure NibbleRecord where
  rs : Bool
  nib : Nibble
deriving DecidableEq, Repr

/-- All that changes by events of the trace: the block's three lines (R28), the external shift register (R30) and
the display observer (R250). -/
@[ext]
structure Wire where
  /-- `DATA` (R28) -/
  data : Bool
  /-- `CLK` (R28) -/
  clk : Bool
  /-- `LAT` (R28) -/
  lat : Bool
  /-- `SR`, the shift stage (R30) -/
  sr : Byte
  /-- `Q`, the output latch (R30) -/
  q : Byte
  /-- `NL`, the nibble log, oldest record first (R250) -/
  nl : List NibbleRecord
  /-- how many records were draws: the model's own counter for the free values of R250 (log 3) -/
  draws : Nat
deriving DecidableEq, Repr

/-- The configured line count `DS.lines`, 1..4 (R200, R181; C4 of 90_conflicts.md). -/
inductive LineCount where
  | one
  | two
  | three
  | four
deriving DecidableEq, Repr

/-- The host's display state after the first `begin` (R200). -/
structure DisplayState where
  lines : LineCount
  /-- `two_line` -/
  twoLine : Bool
  font10 : Bool
  cols : Byte
  display : Bool
  cursor : Bool
  blink : Bool
  /-- left to right -/
  ltr : Bool
  autoscroll : Bool
deriving DecidableEq, Repr

/-- Why a host sequence is refused: the reasons `HREF` holds (R243). Raised by `hostCall`, which emits no word then.
Safe: the model gives the case no meaning. -/
inductive HostRefusal where
  /-- `begin` with `lines` outside 1..4 (R181) -/
  | linesOutOfRange (lines : Byte)
  /-- an LCD host operation before the first `begin` (R200, R287) -/
  | beforeBegin
deriving DecidableEq, Repr

/-- The complete model state (R42). -/
@[ext]
structure State where
  /-- `S`, the shadow register (R21) -/
  shadow : Byte
  /-- `PM`, the pin map (R24) -/
  pm : PinMap
  /-- the lines, the external register and the observer -/
  wire : Wire
  /-- the command index (R29) -/
  pc : Nat
  /-- `P`, the command stream (R29, R57, R65) -/
  prog : List Word
  /-- a push has completed (R31) -/
  pushed : Bool
  /-- `RESP` (R32) -/
  resp : Byte
  /-- `FAULT`: none, or the word of `IllegalCommand(word)` (R33, R242) -/
  faultMark : Option Word
  /-- `T`, oldest event first (R40) -/
  trace : List Event
  /-- `DS`: none while `initialised = 0`, when its fields hold no value (R200; log 10) -/
  ds : Option DisplayState
  /-- `HREF` (R243) -/
  href : Option HostRefusal
deriving DecidableEq, Repr

/-- The machine stops with a fault. -/
inductive Fault where
  /-- Raised by `step` in a state whose `FAULT` mark holds this word: no further operation executes (R242). Safe:
  the spec gives the state no step. -/
  | illegalCommand (word : Word)
deriving DecidableEq, Repr

/-- The model has no move. -/
inductive Refusal where
  /-- Raised by an arm of `exec` for an instruction that has no meaning yet; no arm does. Safe. -/
  | notModelled (mnemonic : String)
  /-- Raised by `step` when the stream has no word at `pc`: the run has ended (R43). Safe: log 5. -/
  | endOfStream
deriving DecidableEq, Repr

/-- `DS.initialised` (R200): `begin` has completed at least once (log 10). -/
def State.initialised (s : State) : Bool := s.ds.isSome

/-- The wires at power-up (R270): all lines 0, the register's two stages as drawn, nothing recorded. -/
def Wire.powerUp (sr q : Byte) : Wire :=
  { data := false, clk := false, lat := false, sr := sr, q := q, nl := [], draws := 0 }

/-- Power-up, treated as a construction (R270), for any value of the parameters of R10 and any stream. -/
def State.construct (pm : PinMap) (shadow sr q : Byte) (prog : List Word) : State :=
  { shadow := shadow, pm := pm, wire := Wire.powerUp sr q, pc := 0, prog := prog, pushed := false, resp := 0,
    faultMark := none, trace := [], ds := none, href := none }

/-- The machine right after reset (R270) on the default constructor path (R26), with no program given yet
(logs 1, 2, 6). -/
def State.reset : State :=
  State.construct PinMap.default Config.shadowReset Config.srPowerup Config.qPowerup []

end Sys2Proof.Machine
end

