-- ==== Sys2Proof/Machine/Operands.lean ====
section
/-! DEFINITION. Operand forms and bit-field helpers (R11, R72): writing one bit of a byte, reading a mapped bit,
the nibbles of a byte, the duration of a delay, the external register's shift. -/

namespace Sys2Proof.Machine

/-- Bit `i` of a byte (R11). -/
def bitAt (x : Byte) (i : BitIndex) : Bool := x.getLsbD i.toNat

/-- `x[i] <- v`, the other seven bits unchanged (R12, R103). -/
def setBit (x : Byte) (i : BitIndex) (v : Bool) : Byte :=
  if v then x ||| (1#8 <<< i.toNat) else x &&& ~~~(1#8 <<< i.toNat)

/-- `b[7:4]`, that is `b >> 4` (R140, R141). -/
def highNibble (b : Byte) : Nibble := b.extractLsb' 4 4

/-- `b[3:0]`, that is `b & 0x0F` (R120, R140). -/
def lowNibble (b : Byte) : Nibble := b.extractLsb' 0 4

/-- The duration of `DELAY u, c` in nanoseconds (R72, R160): an exact natural-number product. -/
def delayNs : DelayUnit → BitVec 11 → Nat
  | .us, c => c.toNat * 1000
  | .ms, c => c.toNat * 1000000

/-- `((SR << 1) | DATA) & 0xFF` (R50). -/
def shiftIn (sr : Byte) (data : Bool) : Byte := (sr <<< 1) ||| (BitVec.ofBool data).setWidth 8

/-- The nibble on the four data outputs, `{Q[d3], Q[d2], Q[d1], Q[d0]}` (R250). -/
def dataNibble (pm : PinMap) (q : Byte) : Nibble :=
  BitVec.ofBool (bitAt q pm.d3) ++ BitVec.ofBool (bitAt q pm.d2) ++ BitVec.ofBool (bitAt q pm.d1) ++
    BitVec.ofBool (bitAt q pm.d0)

/-- The four data bits written in the order `d0` .. `d3`; of two equal indices the later write wins (R120, R25). -/
def setNibble (pm : PinMap) (x : Byte) (n : Nibble) : Byte :=
  setBit (setBit (setBit (setBit x pm.d0 (n.getLsbD 0)) pm.d1 (n.getLsbD 1)) pm.d2 (n.getLsbD 2)) pm.d3 (n.getLsbD 3)

end Sys2Proof.Machine
end

