-- ==== Sys2Proof/Machine/Flags.lean ====
section
/-! DEFINITION. The block has no flags and no condition codes (R34). The one result an operation reports is `RESP`
(R32): 1 after `SEND` with d = 1, 0 after every other operation. -/

namespace Sys2Proof.Machine

/-- `RESP` of an operation without a return value (R32). -/
def respNone : Byte := 0

/-- `RESP` of `SEND b, d` (R140): `write` reports one byte consumed. -/
def respSend (d : Bool) : Byte := if d then 1 else 0

end Sys2Proof.Machine
end

