-- ==== Sys2Proof/Machine/Wire.lean ====
section
/-! DEFINITION. How the lines, the external shift register and the display observer react to the events of the
trace (R50, R51, R250): their state is a function of the trace (R20, R30). -/

namespace Sys2Proof.Machine

/-- The enable output falls between two latched values (R250). -/
def enFalls (pm : PinMap) (qo qn : Byte) : Bool := bitAt qo pm.en && !bitAt qn pm.en

/-- The enable output rises between two latched values (R250, R283). -/
def enRises (pm : PinMap) (qo qn : Byte) : Bool := !bitAt qo pm.en && bitAt qn pm.en

/-- RS and D0..D3 are the same in two latched values (R250, R283). -/
def rsDataStable (pm : PinMap) (qo qn : Byte) : Bool :=
  bitAt qo pm.rs == bitAt qn pm.rs && dataNibble pm qo == dataNibble pm qn

/-- The observer at a latch rise from `w.q` to `qn` (R250). A record it cannot tell is a free value; that the value
depends on nothing but the number of draws before it, so that two machines with equal counts draw alike, is a DESIGN
CHOICE (log 3). -/
def Wire.observe (pm : PinMap) (qn : Byte) (w : Wire) : Wire :=
  if enFalls pm w.q qn then
    if rsDataStable pm w.q qn then
      { w with nl := w.nl ++ [⟨bitAt qn pm.rs, dataNibble pm qn⟩] }
    else
      { w with nl := w.nl ++ [⟨Config.drawRs w.draws, Config.drawNib w.draws⟩], draws := w.draws + 1 }
  else w

/-- One event (R50, R51): a clock rise shifts `DATA` in, a latch rise copies the shift stage to the outputs, and a
line write at the line's present level changes nothing. -/
def Wire.react (pm : PinMap) (w : Wire) : Event → Wire
  | .setData v => { w with data := v }
  | .setClk v => { w with clk := v, sr := if v && !w.clk then shiftIn w.sr w.data else w.sr }
  | .setLat v => if v && !w.lat then { w.observe pm w.sr with lat := v, q := w.sr } else { w with lat := v }
  | .wait _ => w

/-- A list of events, in order (R62). -/
def Wire.replay (pm : PinMap) (w : Wire) (evs : List Event) : Wire := evs.foldl (Wire.react pm) w

end Sys2Proof.Machine
end

