-- ==== Sys2Proof/Machine/Ops.lean ====
section
/-! DEFINITION. The named operations every meaning is built from: events, bit writes, the push (R100), the enable
pulse (R121), the nibble write (R120), retiring an operation (R78), fetching a word (R29) and the one exception
(R242), from which nothing returns (R247). -/

namespace Sys2Proof.Machine

/-- Append events to the trace, in order; the wires react to each (R12, R40, R62). -/
def State.emit (s : State) (evs : List Event) : State :=
  { s with wire := s.wire.replay s.pm evs, trace := s.trace ++ evs }

/-- `Wait(ns)` (R12). -/
def State.pause (s : State) (ns : Nat) : State := s.emit [.wait ns]

/-- `S[i] <- v` (R12): no event. -/
def State.writeBit (s : State) (i : BitIndex) (v : Bool) : State := { s with shadow := setBit s.shadow i v }

/-- The six events of one bit of a push (R100). -/
def bitEvents (b : Bool) : List Event :=
  [.setData b, .wait Config.tHold, .setClk true, .wait Config.tHold, .setClk false, .wait Config.tHold]

/-- The 53 events of a push of the value `v` (R100): bit 7 down to bit 0, the latch pulse, the data line low. -/
def pushEvents (v : Byte) : List Event :=
  [7, 6, 5, 4, 3, 2, 1, 0].flatMap (fun k => bitEvents (v.getLsbD k)) ++
    [.setLat true, .wait Config.tHold, .setLat false, .wait Config.tHold, .setData false]

/-- `Push()` (R100). -/
def State.push (s : State) : State := { s.emit (pushEvents s.shadow) with pushed := true }

/-- `PulseEnable()` (R121). -/
def State.pulseEnable (s : State) : State :=
  let low := ((s.writeBit s.pm.en false).push).pause Config.tHold
  let high := ((low.writeBit s.pm.en true).push).pause Config.tHold
  ((high.writeBit s.pm.en false).push).pause Config.tSettle

/-- The four data bits, in the order d0 .. d3 (R120). -/
def State.writeData (s : State) (n : Nibble) : State := { s with shadow := setNibble s.pm s.shadow n }

/-- `writeNibble` (R120): the data bits, one push, one enable pulse. -/
def State.writeNibble (s : State) (n : Nibble) : State := ((s.writeData n).push).pulseEnable

/-- The end of an operation: `RESP <- r; pc <- pc + 1` (R32, R78). -/
def State.retire (s : State) (r : Byte) : State := { s with resp := r, pc := s.pc + 1 }

/-- The word at `pc` (R29). -/
def State.fetch (s : State) : Option Word := s.prog[s.pc]?

/-- `raise IllegalCommand(word)` (R242): the mark, and nothing else. There is no saved state, no vector and no
return (R246, R247). -/
def State.raiseIllegal (s : State) (w : Word) : State := { s with faultMark := some w }

/-- A construction that is not a power-up (R271): everything as R270 gives it, but `SR` and `Q` keep their
values (log 15). -/
def State.reconstruct (s : State) (pm : PinMap) (shadow : Byte) (prog : List Word) : State :=
  let fresh := State.construct pm shadow s.wire.sr s.wire.q prog
  { fresh with wire := { fresh.wire with draws := s.wire.draws } }

end Sys2Proof.Machine
end

