-- ==== Sys2Proof/Machine/Link.lean ====
section
/-! DEFINITION. The serial encoder: PUSH and SETBIT (40_link.md). -/

namespace Sys2Proof.Machine

/-- `PUSH` (R102). -/
def execPush (s : State) : Host.Outcome State Fault Refusal := .next (s.push.retire respNone)

/-- `SETBIT idx, v` (R103): one bit of the shadow, no push. -/
def execSetbit (idx : BitIndex) (v : Bool) (s : State) : Host.Outcome State Fault Refusal :=
  .next ((s.writeBit idx v).retire respNone)

end Sys2Proof.Machine
end

