-- ==== Sys2Proof/Machine/NibbleStrobe.lean ====
section
/-! DEFINITION. Nibble strobe and enable pulse: WNIB, PULSE and FIDLE (41_nibble.md). -/

namespace Sys2Proof.Machine

/-- `WNIB n` (R120): only `n[3:0]` is used. -/
def execWnib (n : Byte) (s : State) : Host.Outcome State Fault Refusal :=
  .next ((s.writeNibble (lowNibble n)).retire respNone)

/-- `PULSE` (R123). -/
def execPulse (s : State) : Host.Outcome State Fault Refusal := .next (s.pulseEnable.retire respNone)

/-- `FIDLE` (R124): RS and EN high, a push, both low, a push. -/
def execFidle (s : State) : Host.Outcome State Fault Refusal :=
  let high := ((s.writeBit s.pm.rs true).writeBit s.pm.en true).push
  .next ((((high.writeBit s.pm.rs false).writeBit s.pm.en false).push).retire respNone)

end Sys2Proof.Machine
end

