-- ==== Sys2Proof/Machine/ByteEncoder.lean ====
section
/-! DEFINITION. The byte encoder: SEND, with its pseudo-instructions CMD and WRITE (42_encoder.md). -/

namespace Sys2Proof.Machine

/-- `SEND b, d` (R140): RS, a push, the high nibble, the low nibble. -/
def execSend (b : Byte) (d : Bool) (s : State) : Host.Outcome State Fault Refusal :=
  .next (((((s.writeBit s.pm.rs d).push).writeNibble (highNibble b)).writeNibble (lowNibble b)).retire (respSend d))

end Sys2Proof.Machine
end

