-- ==== Sys2Proof/Machine/SideTiming.lean ====
section
/-! DEFINITION. The LED side channel and the timing control: LEDON, LEDOFF and DELAY (43_side_and_timing.md). -/

namespace Sys2Proof.Machine

/-- `LEDON` (R162): writes 0, the polarity the source observes (C7 of 90_conflicts.md). -/
def execLedon (s : State) : Host.Outcome State Fault Refusal :=
  .next (((s.writeBit s.pm.led false).push).retire respNone)

/-- `LEDOFF` (R163): writes 1. -/
def execLedoff (s : State) : Host.Outcome State Fault Refusal :=
  .next (((s.writeBit s.pm.led true).push).retire respNone)

/-- `DELAY u, c` (R160): one wait, recorded even for a count of 0. -/
def execDelay (u : DelayUnit) (c : BitVec 11) (s : State) : Host.Outcome State Fault Refusal :=
  .next ((s.pause (delayNs u c)).retire respNone)

end Sys2Proof.Machine
end

