-- ==== Sys2Proof/Machine/Dispatch.lean ====
section
/-! DEFINITION. One arm per operation (R71): each is one call of its meaning. -/

namespace Sys2Proof.Machine

/-- The meaning of an operation. -/
def exec (i : Instr) (s : State) : Host.Outcome State Fault Refusal :=
  match i with
  | .push => Sys2Proof.Machine.execPush s
  | .setbit idx v => Sys2Proof.Machine.execSetbit idx v s
  | .wnib n => Sys2Proof.Machine.execWnib n s
  | .pulse => Sys2Proof.Machine.execPulse s
  | .send b d => Sys2Proof.Machine.execSend b d s
  | .ledon => Sys2Proof.Machine.execLedon s
  | .ledoff => Sys2Proof.Machine.execLedoff s
  | .fidle => Sys2Proof.Machine.execFidle s
  | .delay u c => Sys2Proof.Machine.execDelay u c s

end Sys2Proof.Machine
end

