-- ==== Sys2Proof/Machine/Step.lean ====
section
/-! DEFINITION. One atomic step of the block (R20, R64), and the placing of a word where the next step fetches. -/

namespace Sys2Proof.Machine

/-- One step: a faulted machine is stuck (R242); at the end of the stream there is no move (R43, log 5); an illegal
word records the fault (R242, log 4); any other word runs (R78). -/
def step (s : State) : Host.Outcome State Fault Refusal :=
  match s.faultMark with
  | some w => .fault (.illegalCommand w)
  | none =>
    match s.fetch with
    | none => .refused .endOfStream
    | some w =>
      match decode w with
      | .illegal _ => .next (s.raiseIllegal w)
      | .op i => exec i s

/-- `k` zero words: they stand before `pc` only, where nothing is fetched again (R78). -/
def zeroWords (k : Nat) : List Word := List.replicate k 0

/-- `s` with the table's word at `P[pc]` and no fault mark, so that the next step runs it (logs 6 and 7). -/
def State.withFetchWord (s : State) (nbits w : Nat) : State :=
  { s with
    prog := s.prog.take s.pc ++ zeroWords (s.pc - s.prog.length) ++ tableWord nbits w :: s.prog.drop (s.pc + 1),
    faultMark := none }

end Sys2Proof.Machine
end

