-- ==== Sys2Proof/Machine/Assembler.lean ====
section
/-! DEFINITION. The assembler (R76, R77): a line of text is read as a statement, and a statement whose operands fit
becomes one operation. -/

namespace Sys2Proof.Machine

/-- The operation of a statement; none where an operand does not fit its field (R77 for `DELAY`;
DESIGN CHOICE for the others, log 17). -/
def assemble (a : Asm) : Option Instr :=
  if a.WellFormed then
    some (match a with
      | .push => .push
      | .setbit idx v => .setbit (BitVec.ofNat 3 idx) (v == 1)
      | .wnib n => .wnib (BitVec.ofNat 8 n)
      | .pulse => .pulse
      | .send b d => .send (BitVec.ofNat 8 b) (d == 1)
      | .ledon => .ledon
      | .ledoff => .ledoff
      | .fidle => .fidle
      | .delay u c => .delay u (BitVec.ofNat 11 c)
      | .cmd b => .cmd (BitVec.ofNat 8 b)
      | .write b => .write (BitVec.ofNat 8 b))
  else none

/-- The value of a digit character. -/
def digitValue (c : Char) : Option Nat :=
  let n := c.toNat
  if 48 ≤ n ∧ n ≤ 57 then some (n - 48)
  else if 97 ≤ n ∧ n ≤ 102 then some (n - 87)
  else if 65 ≤ n ∧ n ≤ 70 then some (n - 55)
  else none

/-- A number in a base, its digits most significant first, added to `acc`. -/
def digitsFrom (base acc : Nat) : List Char → Option Nat
  | [] => some acc
  | c :: cs =>
    match digitValue c with
    | some d => if d < base then digitsFrom base (acc * base + d) cs else none
    | none => none

/-- A decimal or `0x` hexadecimal number (R76); at least one digit. -/
def readNumber : List Char → Option Nat
  | [] => none
  | ['0', 'x'] => none
  | '0' :: 'x' :: cs => digitsFrom 16 0 cs
  | cs => digitsFrom 10 0 cs

/-- A `DELAY` operand: a number with the suffix `us` or `ms` (R76). -/
def readDuration (cs : List Char) : Option (DelayUnit × Nat) :=
  match cs.reverse with
  | 's' :: 'u' :: rest => (readNumber rest.reverse).map fun n => (.us, n)
  | 's' :: 'm' :: rest => (readNumber rest.reverse).map fun n => (.ms, n)
  | _ => none

/-- The line without its comment (R76). -/
def dropComment (cs : List Char) : List Char := cs.takeWhile (· != ';')

/-- A blank or a tab. -/
def isBlank (c : Char) : Bool := c == ' ' || c == '\t'

/-- The text without the blanks around it. -/
def trim (cs : List Char) : List Char := ((cs.dropWhile isBlank).reverse.dropWhile isBlank).reverse

/-- The parts between commas. -/
def splitCommas : List Char → List (List Char)
  | [] => [[]]
  | c :: cs =>
    if c == ',' then [] :: splitCommas cs
    else
      match splitCommas cs with
      | [] => [[c]]
      | p :: ps => (c :: p) :: ps

/-- The operands of a line, each without the blanks around it; none at all for an empty text. -/
def operandTexts (cs : List Char) : List (List Char) :=
  match trim cs with
  | [] => []
  | cs => (splitCommas cs).map trim

/-- A statement from its mnemonic and its operands (R76, R77). -/
def readStatement (mnemonic : List Char) (operands : List (List Char)) : Option Asm :=
  match mnemonic, operands with
  | ['P', 'U', 'S', 'H'], [] => some .push
  | ['S', 'E', 'T', 'B', 'I', 'T'], [i, v] => (readNumber i).bind fun i => (readNumber v).map fun v => .setbit i v
  | ['W', 'N', 'I', 'B'], [n] => (readNumber n).map .wnib
  | ['P', 'U', 'L', 'S', 'E'], [] => some .pulse
  | ['S', 'E', 'N', 'D'], [b, d] => (readNumber b).bind fun b => (readNumber d).map fun d => .send b d
  | ['L', 'E', 'D', 'O', 'N'], [] => some .ledon
  | ['L', 'E', 'D', 'O', 'F', 'F'], [] => some .ledoff
  | ['F', 'I', 'D', 'L', 'E'], [] => some .fidle
  | ['D', 'E', 'L', 'A', 'Y'], [t] => (readDuration t).map fun t => .delay t.1 t.2
  | ['C', 'M', 'D'], [b] => (readNumber b).map .cmd
  | ['W', 'R', 'I', 'T', 'E'], [b] => (readNumber b).map .write
  | _, _ => none

/-- What a line of source text is. -/
inductive AsmLine where
  /-- nothing but blanks and a comment -/
  | empty
  | statement (a : Asm)
  /-- not the syntax of R76 -/
  | unreadable
deriving DecidableEq, Repr

/-- A line of source text (R76): one operation, a comment, or neither. -/
def readLine (cs : List Char) : AsmLine :=
  match trim (dropComment cs) with
  | [] => .empty
  | text =>
    match readStatement (text.takeWhile fun c => !isBlank c) (operandTexts (text.dropWhile fun c => !isBlank c)) with
    | some a => .statement a
    | none => .unreadable

end Sys2Proof.Machine
end

