-- ==== Sys2Proof/Machine/HostOps.lean ====
section
/-! DEFINITION. The host layer: the InitSequencer (44_init_sequence.md) and the high-level operations
(45_host_ops.md), each a function from its arguments and `DS` to command words. The HD44780 command bytes are an
argument (R201, log 11). -/

namespace Sys2Proof.Machine

/-- A call of the driver (R180, R203 to R215). -/
inductive HostOp where
  | begin (cols lines dotSize : Byte)
  | clear
  | home
  | display
  | noDisplay
  | cursor
  | noCursor
  | blink
  | noBlink
  | scrollDisplayLeft
  | scrollDisplayRight
  | leftToRight
  | rightToLeft
  | autoscroll
  | noAutoscroll
  | setCursor (col row : Byte)
  | createChar (slot : Byte) (glyph : Vector Byte 8)
  | ledOn
  | ledOff
  | command (b : Byte)
  | write (b : Byte)
deriving DecidableEq, Repr

/-- What a call answers: the operations it emits and the new `DS`, or a refusal (R243). -/
inductive HostAnswer where
  | emits (ops : List Instr) (ds : Option DisplayState)
  | refuses (why : HostRefusal)
deriving DecidableEq, Repr

/-- A line count from `begin`'s argument; none outside 1..4 (R181). -/
def lineCountOf (lines : Byte) : Option LineCount :=
  match lines.toNat with
  | 1 => some .one
  | 2 => some .two
  | 3 => some .three
  | 4 => some .four
  | _ => none

/-- The index of the last row, `DS.lines - 1` (R211). -/
def LineCount.last : LineCount → Fin 4
  | .one => 0
  | .two => 1
  | .three => 2
  | .four => 3

/-- `DS.lines` as a number. -/
def LineCount.count (l : LineCount) : Nat := l.last.val + 1

/-- The clamped row (R211): `DS.lines - 1` for a row of `DS.lines` or more. -/
def clampRow (l : LineCount) (row : Byte) : Fin 4 :=
  if h : row.toNat < l.count then ⟨row.toNat, Nat.lt_of_lt_of_le h l.last.isLt⟩ else l.last

/-- The DDRAM address of `setCursor` (R211): an 8-bit sum, `col` not clamped. -/
def cursorAddress (l : LineCount) (col row : Byte) : Byte := Config.rowBase (clampRow l row) + col

/-- The CGRAM address of `createChar` (R213): `(slot & 7) * 8`. -/
def glyphAddress (slot : Byte) : BitVec 6 := (slot &&& 7).setWidth 6 * 8

/-- `font10 = (lines = 1) and (dotSize != 0)` (R181). -/
def fontOf (l : LineCount) (dotSize : Byte) : Bool := l == .one && dotSize != 0

/-- `two_line = (lines > 1)` (R181). -/
def twoLineOf (l : LineCount) : Bool := l != .one

/-- `DS` after `begin` (R181, R185, R186, R188). -/
def displayAfterBegin (l : LineCount) (cols dotSize : Byte) : DisplayState :=
  { lines := l, twoLine := twoLineOf l, font10 := fontOf l dotSize, cols := cols, display := true, cursor := false,
    blink := false, ltr := true, autoscroll := false }

/-- `CMD DISPCTL_CMD(DS.display, DS.cursor, DS.blink)` (R202). -/
def sendDisplayControl (cb : Config.CommandBytes) (d : DisplayState) : List Instr :=
  [.cmd (cb.dispctl d.display d.cursor d.blink)]

/-- `CMD ENTRY_CMD(DS.ltr, DS.autoscroll)` (R202). -/
def sendEntryMode (cb : Config.CommandBytes) (d : DisplayState) : List Instr := [.cmd (cb.entry d.ltr d.autoscroll)]

/-- PowerWait (R182). -/
def powerWait : List Instr := [.delay .ms 100]

/-- ForceIdle (R183). -/
def forceIdle : List Instr := [.fidle]

/-- Negotiate4Bit (R184). -/
def negotiate4Bit : List Instr :=
  [.wnib 0x03, .delay .ms 5, .wnib 0x03, .delay .ms 5, .wnib 0x03, .delay .ms 1, .wnib 0x02]

/-- SetFunction (R185). -/
def setFunction (cb : Config.CommandBytes) (d : DisplayState) : List Instr := [.cmd (cb.funcset d.twoLine d.font10)]

/-- The words of `clear` (R203, R187). -/
def clearOps (cb : Config.CommandBytes) : List Instr := [.cmd cb.clear, .delay .ms 2]

/-- The words of `home` (R204). -/
def homeOps (cb : Config.CommandBytes) : List Instr := [.cmd cb.home, .delay .ms 2]

/-- The seven states of `begin`, in strict order (R180, R191). -/
def beginOps (cb : Config.CommandBytes) (d : DisplayState) : List Instr :=
  powerWait ++ forceIdle ++ negotiate4Bit ++ setFunction cb d ++ sendDisplayControl cb d ++ clearOps cb ++
    sendEntryMode cb d

/-- An LCD operation with the `DS` it finds; refused before the first `begin` (R200, R287). -/
def lcdOp (ds : Option DisplayState) (f : DisplayState → HostAnswer) : HostAnswer :=
  match ds with
  | some d => f d
  | none => .refuses .beforeBegin

/-- A change of a DisplayControl flag: the flag, then the display-control command (R202). -/
def controlOp (cb : Config.CommandBytes) (ds : Option DisplayState) (f : DisplayState → DisplayState) : HostAnswer :=
  lcdOp ds fun d => .emits (sendDisplayControl cb (f d)) (some (f d))

/-- A change of an EntryMode flag: the flag, then the entry-mode command (R202). -/
def entryOp (cb : Config.CommandBytes) (ds : Option DisplayState) (f : DisplayState → DisplayState) : HostAnswer :=
  lcdOp ds fun d => .emits (sendEntryMode cb (f d)) (some (f d))

/-- An LCD operation that leaves `DS` unchanged. -/
def plainOp (ds : Option DisplayState) (f : DisplayState → List Instr) : HostAnswer :=
  lcdOp ds fun d => .emits (f d) (some d)

/-- The host sequence of a call (R180 to R191, R203 to R216). -/
def hostAnswer (cb : Config.CommandBytes) (op : HostOp) (ds : Option DisplayState) : HostAnswer :=
  match op with
  | .begin cols lines dotSize =>
    match lineCountOf lines with
    | none => .refuses (.linesOutOfRange lines)
    | some l => .emits (beginOps cb (displayAfterBegin l cols dotSize)) (some (displayAfterBegin l cols dotSize))
  | .clear => plainOp ds fun _ => clearOps cb
  | .home => plainOp ds fun _ => homeOps cb
  | .display => controlOp cb ds fun d => { d with display := true }
  | .noDisplay => controlOp cb ds fun d => { d with display := false }
  | .cursor => controlOp cb ds fun d => { d with cursor := true }
  | .noCursor => controlOp cb ds fun d => { d with cursor := false }
  | .blink => controlOp cb ds fun d => { d with blink := true }
  | .noBlink => controlOp cb ds fun d => { d with blink := false }
  | .scrollDisplayLeft => plainOp ds fun _ => [.cmd (cb.shift false)]
  | .scrollDisplayRight => plainOp ds fun _ => [.cmd (cb.shift true)]
  | .leftToRight => entryOp cb ds fun d => { d with ltr := true }
  | .rightToLeft => entryOp cb ds fun d => { d with ltr := false }
  | .autoscroll => entryOp cb ds fun d => { d with autoscroll := true }
  | .noAutoscroll => entryOp cb ds fun d => { d with autoscroll := false }
  | .setCursor col row => plainOp ds fun d => [.cmd (cb.ddram (cursorAddress d.lines col row))]
  | .createChar slot glyph => plainOp ds fun _ => .cmd (cb.cgram (glyphAddress slot)) :: glyph.toList.map Instr.write
  | .ledOn => .emits [.ledon] ds
  | .ledOff => .emits [.ledoff] ds
  | .command b => plainOp ds fun _ => [.cmd b]
  | .write b => plainOp ds fun _ => [.write b]

/-- The host issues a call: its words join the stream and `DS` takes its new value, or the refusal mark is set and no
word is emitted (R243; logs 8 and 9). -/
def hostCall (cb : Config.CommandBytes) (op : HostOp) (s : State) : State :=
  match hostAnswer cb op s.ds with
  | .emits ops ds => { s with prog := s.prog ++ ops.map encode, ds := ds }
  | .refuses why => { s with href := some why }

/-- Several calls, in order. -/
def hostCalls (cb : Config.CommandBytes) (ops : List HostOp) (s : State) : State :=
  ops.foldl (fun s op => hostCall cb op s) s

end Sys2Proof.Machine
end

