-- ==== Sys2Proof/Machine/Instances.lean ====
section
/-! DEFINITION. Several driver instances (R252): each has its own complete state and its own three lines; two
instances on one line are refused, when the second is added and at every step (D25, log 14). -/

namespace Sys2Proof.Machine

/-- One instance `LiquidDisplay(dataPin, clockPin, latchPin)` (R2, R28). -/
structure DisplayInstance where
  dataPin : Nat
  clockPin : Nat
  latchPin : Nat
  state : State
deriving DecidableEq, Repr

/-- The lines an instance drives. -/
def DisplayInstance.pins (d : DisplayInstance) : List Nat := [d.dataPin, d.clockPin, d.latchPin]

/-- Two instances drive no common line. -/
def DisplayInstance.apart (d e : DisplayInstance) : Bool := d.pins.all fun p => !e.pins.contains p

/-- No two instances of the list drive a common line. -/
def linesApart : List DisplayInstance → Bool
  | [] => true
  | d :: ds => ds.all d.apart && linesApart ds

/-- Why several instances together have no move. -/
inductive SystemRefusal where
  /-- Raised by `stepInstance` where two instances drive one line (R252, I13 of 93_implementation_defined.md). Safe:
  the spec has a model refuse them. -/
  | sharedLine
  /-- Raised by `stepInstance` for an index that names no instance. Safe. -/
  | noInstance
  /-- The instance itself is refused a step. Safe: log 5. -/
  | ofInstance (why : Refusal)
deriving DecidableEq, Repr

/-- A new instance beside the others; none where it would share a line (R252). -/
def addInstance (sys : List DisplayInstance) (d : DisplayInstance) : Option (List DisplayInstance) :=
  if sys.all d.apart then some (sys ++ [d]) else none

/-- One step of instance `k`, the others untouched (R252); no move where any two instances share a line. -/
def stepInstance (sys : List DisplayInstance) (k : Nat) :
    Host.Outcome (List DisplayInstance) Fault SystemRefusal :=
  if linesApart sys then
    match sys[k]? with
    | none => .refused .noInstance
    | some d =>
      match step d.state with
      | .next s => .next (sys.set k { d with state := s })
      | .fault r => .fault r
      | .refused r => .refused (.ofInstance r)
  else .refused .sharedLine

end Sys2Proof.Machine
end

