-- ==== Sys2Proof/Safety.lean ====
section
/-! DEFINITION. What counts as a safe run, and the terms claims are stated in: final states (R43), idle lines
(R28), a completed push (R52), the timing predicates (R282 to R288) and the sums of waits (R290). -/

namespace Sys2Proof.Machine

/-- The three lines are at 0: after reset and after every operation (R28). -/
def Wire.Idle (w : Wire) : Prop := w.data = false ∧ w.clk = false ∧ w.lat = false

/-- A run's final state (R43, R243). -/
abbrev State.Final (s : State) : Prop := s.pc = s.prog.length ∧ s.faultMark = none ∧ s.href = none

/-- What a complete push of `v` leaves on idle wires: `SR = Q = v`, the lines at 0, and the observer's record of the
change of the outputs from `w.q` to `v` (R52, R250). -/
def Wire.latched (pm : PinMap) (w : Wire) (v : Byte) : Wire :=
  { w.observe pm v with data := false, clk := false, lat := false, sr := v, q := v }

/-- Several complete pushes, in order. -/
def Wire.latchedAll (pm : PinMap) (w : Wire) (vs : List Byte) : Wire := vs.foldl (Wire.latched pm) w

/-- The three values an enable pulse pushes when the shadow holds `v` (R121). -/
def pulseValues (pm : PinMap) (v : Byte) : List Byte :=
  [setBit v pm.en false, setBit v pm.en true, setBit v pm.en false]

/-- The events of an enable pulse when the shadow holds `v` (R121): three pushes, each with its wait. -/
def pulseEvents (pm : PinMap) (v : Byte) : List Event :=
  pushEvents (setBit v pm.en false) ++ [.wait Config.tHold] ++ pushEvents (setBit v pm.en true) ++
    [.wait Config.tHold] ++ pushEvents (setBit v pm.en false) ++ [.wait Config.tSettle]

/-- The four values a nibble write pushes when the shadow holds `v` (R120). -/
def nibbleValues (pm : PinMap) (v : Byte) (n : Nibble) : List Byte :=
  setNibble pm v n :: pulseValues pm (setNibble pm v n)

/-- The events of a nibble write when the shadow holds `v` (R120). -/
def nibbleEvents (pm : PinMap) (v : Byte) (n : Nibble) : List Event :=
  pushEvents (setNibble pm v n) ++ pulseEvents pm (setNibble pm v n)

/-- The shadow after a nibble write: the data bits, then the enable bit low (R120, R121). -/
def nibbleShadow (pm : PinMap) (v : Byte) (n : Nibble) : Byte := setBit (setNibble pm v n) pm.en false

/-- The time an event is known to take: a wait's bound, nothing for a line write (R41). -/
def Event.ns : Event → Nat
  | .wait ns => ns
  | _ => 0

/-- The sum of the recorded waits: the lower bound of a trace's duration (R41, R290). -/
def waitSum (evs : List Event) : Nat := (evs.map Event.ns).sum

/-- How many pushes a trace holds: each raises the latch line once (R100). -/
def latchRises (evs : List Event) : Nat := evs.count (.setLat true)

/-- The levels written to the data line, in order. -/
def dataWrites (evs : List Event) : List Bool :=
  evs.filterMap fun e => match e with
    | .setData v => some v
    | _ => none

/-- A latch rise of a trace: the waits recorded before it, and `Q` before and after. -/
structure LatchRise where
  at_ns : Nat
  qo : Byte
  qn : Byte
deriving DecidableEq, Repr

/-- The latch rises of a trace that starts on the wires `w`, the clock at `t`. -/
def latchRisesFrom (pm : PinMap) (w : Wire) (t : Nat) : List Event → List LatchRise
  | [] => []
  | e :: evs =>
    let rest := latchRisesFrom pm (w.react pm e) (t + e.ns) evs
    match e with
    | .setLat true => if w.lat then rest else ⟨t, w.q, w.sr⟩ :: rest
    | _ => rest

/-- T1 (R283): from each enable rise to the next enable fall at least `T_EN_MIN`, and RS and the data unchanged at
every latch rise from the rise through the fall. `opened` is the time of a rise whose fall is to come (log 12). -/
def enableHeld (pm : PinMap) (opened : Option Nat) : List LatchRise → Bool
  | [] => true
  | l :: ls =>
    match opened with
    | none =>
      if enRises pm l.qo l.qn then rsDataStable pm l.qo l.qn && enableHeld pm (some l.at_ns) ls
      else enableHeld pm none ls
    | some t =>
      rsDataStable pm l.qo l.qn &&
        if enFalls pm l.qo l.qn then decide (t + Config.tEnMin ≤ l.at_ns) && enableHeld pm none ls
        else enableHeld pm (some t) ls

/-- At least `T_SETTLE` has passed at `now` since the last fall, if there was one (R282). -/
def settledSince (fell : Option Nat) (now : Nat) : Bool :=
  match fell with
  | some t => decide (t + Config.tSettle ≤ now)
  | none => true

/-- T2 (R282): from each enable fall to the next enable rise at least `T_SETTLE`. `fell` is the time of the last
fall with no rise after it. -/
def settleKept (pm : PinMap) (fell : Option Nat) : List LatchRise → Bool
  | [] => true
  | l :: ls =>
    if enFalls pm l.qo l.qn then settleKept pm (some l.at_ns) ls
    else if enRises pm l.qo l.qn then settledSince fell l.at_ns && settleKept pm none ls
    else settleKept pm fell ls

/-- T3 (R286): at least `T_POWER` before the first enable rise. -/
def powerWaited (pm : PinMap) (ls : List LatchRise) : Bool :=
  match ls.find? fun l => enRises pm l.qo l.qn with
  | some l => decide (Config.tPower ≤ l.at_ns)
  | none => true

/-- `TimingOK(T, PM)` (R288): T1, T2 and T3 over a trace that starts on the wires `w` of a power-up (log 12). -/
def timingOK (pm : PinMap) (w : Wire) (evs : List Event) : Bool :=
  enableHeld pm none (latchRisesFrom pm w 0 evs) && settleKept pm none (latchRisesFrom pm w 0 evs) &&
    powerWaited pm (latchRisesFrom pm w 0 evs)

/-- Two latch rises that are a ForceIdle pulse (R124): the enable output rises with RS high, then both fall, the data
unchanged throughout and the width kept. -/
def forceIdlePulse (pm : PinMap) (a b : LatchRise) : Bool :=
  enRises pm a.qo a.qn && bitAt a.qn pm.rs && enFalls pm b.qo b.qn && !bitAt b.qn pm.rs &&
    dataNibble pm a.qo == dataNibble pm a.qn && dataNibble pm b.qo == dataNibble pm b.qn &&
    decide (a.at_ns + Config.tEnMin ≤ b.at_ns)

/-- The latch rises without the ForceIdle pulses among them. -/
def dropForceIdle (pm : PinMap) : List LatchRise → List LatchRise
  | a :: b :: ls => if forceIdlePulse pm a b then dropForceIdle pm ls else a :: dropForceIdle pm (b :: ls)
  | ls => ls

/-- `timingOK` with the ForceIdle pulse, which lowers RS with EN on purpose (R283), left out of T1. R283's own words
give no such exemption, so `timingOK` has none; section L3.3 of 95_test_vectors.md counts `begin` as meeting the
predicate, which is this reading (DEDUCED, log 12). -/
def timingOKBarForceIdle (pm : PinMap) (w : Wire) (evs : List Event) : Bool :=
  enableHeld pm none (dropForceIdle pm (latchRisesFrom pm w 0 evs)) &&
    settleKept pm none (latchRisesFrom pm w 0 evs) && powerWaited pm (latchRisesFrom pm w 0 evs)

/-- An entry of the mock link's log (R253): a nibble recorded, or a delay. -/
inductive MockEntry where
  | nibble (r : NibbleRecord)
  | delay (ns : Nat)
deriving DecidableEq, Repr

/-- `NL` interleaved with the waits of `T` (R253), for a trace that starts on the wires `w`. -/
def mockLog (pm : PinMap) (w : Wire) : List Event → List MockEntry
  | [] => []
  | e :: evs =>
    let w' := w.react pm e
    (match e with
      | .wait ns => [.delay ns]
      | _ => (w'.nl.drop w.nl.length).map .nibble) ++ mockLog pm w' evs

/-- A word is a `DELAY` of at least `ns`. -/
def isDelayOf (ns : Nat) (w : Word) : Bool :=
  match decode w with
  | .op (.delay u c) => decide (ns ≤ delayNs u c)
  | _ => false

/-- A word is the raw nibble 0x03 of Negotiate4Bit (R184). -/
def isRaw3 (w : Word) : Bool := decode w == .op (.wnib 0x03)

/-- A word sends a byte: every LCD operation emits such words, and only `begin` emits other ones before them. -/
def isSend (w : Word) : Bool :=
  match decode w with
  | .op (.send _ _) => true
  | _ => false

/-- R284: every `CMD OP_CLEAR` and `CMD OP_HOME` is followed at once by a `DELAY` of at least `T_CLEAR`. -/
def clearWaits (cb : Config.CommandBytes) : List Word → Bool
  | [] => true
  | w :: ws =>
    (if w == encode (.cmd cb.clear) || w == encode (.cmd cb.home) then
      (match ws with
        | v :: _ => isDelayOf Config.tClear v
        | [] => false)
    else true) && clearWaits cb ws

/-- The words after a ForceIdle that starts a negotiation: three raw 0x03 nibbles, each followed by its delay
(R286). -/
def negotiationWaits : List Word → Bool
  | n1 :: t1 :: n2 :: t2 :: n3 :: t3 :: _ =>
    isRaw3 n1 && isDelayOf Config.tNeg1 t1 && isRaw3 n2 && isDelayOf Config.tNeg2 t2 && isRaw3 n3 &&
      isDelayOf Config.tNeg3 t3
  | _ => false

/-- R286, the host's half: wherever the stream negotiates (a `FIDLE` followed by a raw 0x03 nibble, log 13), the
three nibbles have their delays. -/
def negotiatesSlowly : List Word → Bool
  | [] => true
  | w :: ws =>
    (if decode w == .op .fidle && (ws.head?.any isRaw3) then negotiationWaits ws else true) && negotiatesSlowly ws

/-- The words of a `begin` for the three pairs of function flags it can send (R181, R191). -/
def startsWithBegin (cb : Config.CommandBytes) (ws : List Word) : Bool :=
  [(false, false), (false, true), (true, false)].any fun f =>
    ((beginOps cb { displayAfterBegin .one 0 0 with twoLine := f.1, font10 := f.2 }).map encode).isPrefixOf ws

/-- R287 on the stream: no byte is sent before the first `begin` (log 13). -/
def beginsFirst (cb : Config.CommandBytes) : List Word → Bool
  | [] => true
  | w :: ws => startsWithBegin cb (w :: ws) || (!isSend w && beginsFirst cb ws)

/-- `HostOK(P)` (R288): R284, R286 and R287 over the command stream. -/
def hostOK (cb : Config.CommandBytes) (ws : List Word) : Bool :=
  clearWaits cb ws && negotiatesSlowly ws && beginsFirst cb ws

/-- The invariants every step keeps: the lines rest at 0 (R28); after the first complete push the two stages of the
register agree (R31, R52); `RESP` is 0 or 1 (R32). -/
structure State.Inv (s : State) : Prop where
  idle : s.wire.Idle
  latched : s.pushed = true → s.wire.sr = s.wire.q
  resp : s.resp = 0 ∨ s.resp = 1

end Sys2Proof.Machine
end

