-- ==== Sys2Proof/Certificates/Slice0/Obligations.lean ====
section
/-! DEFINITION. The statements for the provers, each from the rules of spec/. A statement that rests on a rule the
spec marks as its own decision (`[decision: ...]`) or derivation (`[derived: ...]`), or on the model's log, says so
in its docstring and has basis "derived". Unless a statement says otherwise its premise `s.wire.Idle` is the
invariant of R28: the lines are 0 after reset and after every operation. -/

open Sys2Proof Sys2Proof.Machine

namespace Sys2Proof.Claims

/-- The word `0x5000 | b` of `CMD b` (R77). -/
def cmdWord (b : Byte) : Word := 0x5000 ||| b.setWidth 16

/-- The word `0x5100 | b` of `WRITE b` (R77). -/
def writeWord (b : Byte) : Word := 0x5100 ||| b.setWidth 16

/-- The 53 events of R100 for the value `v`, written out. -/
def shiftOut (v : Byte) : List Event :=
  [ .setData (v.getLsbD 7), .wait 1000, .setClk true, .wait 1000, .setClk false, .wait 1000,
    .setData (v.getLsbD 6), .wait 1000, .setClk true, .wait 1000, .setClk false, .wait 1000,
    .setData (v.getLsbD 5), .wait 1000, .setClk true, .wait 1000, .setClk false, .wait 1000,
    .setData (v.getLsbD 4), .wait 1000, .setClk true, .wait 1000, .setClk false, .wait 1000,
    .setData (v.getLsbD 3), .wait 1000, .setClk true, .wait 1000, .setClk false, .wait 1000,
    .setData (v.getLsbD 2), .wait 1000, .setClk true, .wait 1000, .setClk false, .wait 1000,
    .setData (v.getLsbD 1), .wait 1000, .setClk true, .wait 1000, .setClk false, .wait 1000,
    .setData (v.getLsbD 0), .wait 1000, .setClk true, .wait 1000, .setClk false, .wait 1000,
    .setLat true, .wait 1000, .setLat false, .wait 1000, .setData false ]

/-- The events of R121: three pushes, of `lo`, `hi` and `lo`, each with its wait. -/
def strobe (lo hi : Byte) : List Event :=
  shiftOut lo ++ [.wait 1000] ++ shiftOut hi ++ [.wait 1000] ++ shiftOut lo ++ [.wait 50000]

/-- The shadow with the four data bits of a nibble written, in the order of R120. -/
def withNibble (pm : PinMap) (v : Byte) (n0 n1 n2 n3 : Bool) : Byte :=
  setBit (setBit (setBit (setBit v pm.d0 n0) pm.d1 n1) pm.d2 n2) pm.d3 n3

/-- A shadow bit after a nibble has been strobed: EN low, then the data bits with the last write first (R25, R120). -/
def strobedBit (pm : PinMap) (n : Nibble) (old : Bool) (j : BitIndex) : Bool :=
  if j = pm.en then false
  else if j = pm.d3 then n.getLsbD 3
  else if j = pm.d2 then n.getLsbD 2
  else if j = pm.d1 then n.getLsbD 1
  else if j = pm.d0 then n.getLsbD 0
  else old

/-- The operations that push (R59): all but `SETBIT` and `DELAY`. -/
def pushes : Instr → Bool
  | .setbit _ _ | .delay _ _ => false
  | _ => true

/-- The table of R290: events, pushes and recorded nanoseconds of an operation. -/
def cost : Instr → Nat × Nat × Nat
  | .push => (53, 1, 26000)
  | .setbit _ _ => (0, 0, 0)
  | .wnib _ => (215, 4, 156000)
  | .pulse => (162, 3, 130000)
  | .send _ _ => (483, 9, 338000)
  | .ledon => (53, 1, 26000)
  | .ledoff => (53, 1, 26000)
  | .fidle => (106, 2, 52000)
  | .delay .us c => (1, 0, c.toNat * 1000)
  | .delay .ms c => (1, 0, c.toNat * 1000000)

/-- What the observer records at an enable fall from the outputs `qo` to `qn`, in the two branches of R250: RS and the
data where none of the five outputs changes, else the draw of that number (log 3). -/
def fallRecord (pm : PinMap) (draw : Nat) (qo qn : Byte) : NibbleRecord :=
  if ∀ j ∈ [pm.rs, pm.d0, pm.d1, pm.d2, pm.d3], bitAt qo j = bitAt qn j then
    { rs := bitAt qn pm.rs
      nib := BitVec.ofBool (bitAt qn pm.d3) ++ BitVec.ofBool (bitAt qn pm.d2) ++ BitVec.ofBool (bitAt qn pm.d1) ++
        BitVec.ofBool (bitAt qn pm.d0) }
  else { rs := Config.drawRs draw, nib := Config.drawNib draw }

/-- No two instances of the list drive one line, said of every pair. -/
def SeparateLines (sys : List DisplayInstance) : Prop :=
  ∀ (i j : Nat) (d e : DisplayInstance), i ≠ j → sys[i]? = some d → sys[j]? = some e → ∀ p ∈ d.pins, p ∉ e.pins

/-- The host operations R287 does not refuse before `begin` (R214). -/
def allowedBeforeBegin : HostOp → Bool
  | .begin _ _ _ | .ledOn | .ledOff => true
  | _ => false

end Sys2Proof.Claims

open Sys2Proof.Claims

/-! ## Encoding (30_encoding.md; the layout is the spec's own decision D2) -/

/-- Decoding an encoded operation gives it back, every operand at every value (R71, R72, R75; D2). -/
def Obligations.DecodeOfEncodeGivesTheInstruction : Prop := ∀ i : Instr, decode (encode i) = .op i

/-- A legal word is the encoding of what it decodes to: each word has one meaning (R71, R75; D2). -/
def Obligations.EncodeOfDecodeGivesTheWord : Prop := ∀ (w : Word) (i : Instr), decode w = .op i → encode i = w

/-- The decoder follows the opcode table (R73, R74, R75; D2): a word decodes to an operation exactly when a row
selects it by mask and match, and then the rows that select it are those of the operation's mnemonic. -/
def Obligations.DecoderFollowsTheOpcodeTable : Prop :=
  (∀ w : Word, (∃ i, decode w = .op i) ↔ ∃ r ∈ opcodeTable, w &&& r.mask = r.bits) ∧
  (∀ (w : Word) (i : Instr), decode w = .op i → ∀ r ∈ opcodeTable, w &&& r.mask = r.bits ↔ r.mnemonic = i.mnemonic)

/-- Words written out in the spec decode to their operations, and the illegal ones of L2.5 do not (R71, R74; D2, D4). -/
def Obligations.WordsOfTheSpecDecodeRight : Prop :=
  decode 0x1000 = .op .push ∧ decode 0x200A = .op (.setbit 2 true) ∧ decode 0x2007 = .op (.setbit 7 false) ∧
  decode 0x30F3 = .op (.wnib 0xF3) ∧ decode 0x4000 = .op .pulse ∧ decode 0x5141 = .op (.send 0x41 true) ∧
  decode 0x50C3 = .op (.send 0xC3 false) ∧ decode 0x6000 = .op .ledon ∧ decode 0x7000 = .op .ledoff ∧
  decode 0x8000 = .op .fidle ∧ decode 0x9805 = .op (.delay .ms 5) ∧ decode 0x97FF = .op (.delay .us 2047) ∧
  decode 0x0000 = .illegal .noOperation ∧ decode 0xA000 = .illegal .noOperation ∧
  decode 0x2010 = .illegal .reservedBit ∧ decode 0x5200 = .illegal .reservedBit

/-- The assembler (R76, R77; D2): a pseudo-instruction is its SEND, and a count that does not fit in 11 bits is refused. -/
def Obligations.PseudoInstructionsAreSends : Prop :=
  (∀ b, b < 256 → assemble (.cmd b) = some (.send (BitVec.ofNat 8 b) false) ∧
    assemble (.write b) = some (.send (BitVec.ofNat 8 b) true)) ∧
  (∀ b : Byte, encode (.send b false) = cmdWord b ∧ encode (.send b true) = writeWord b) ∧
  (∀ u c, assemble (.delay u c) = none ↔ 2047 < c)

/-! ## The step (R20, R43, R78, R242) -/

/-- A step runs the operation the word at `pc` decodes to, and moves past that one word (R78; D3). Nothing else is
added around `exec`. -/
def Obligations.StepRunsTheDecodedOperation : Prop :=
  ∀ (s : State) (w : Word) (i : Instr), s.faultMark = none → s.prog[s.pc]? = some w → decode w = .op i →
    step s = exec i s ∧ ∀ t, step s = .next t → t.pc = s.pc + 1

/-- An illegal word sets the fault mark to itself, changes nothing else, and after it there is no step (R242; D4; that
recording the mark is a step of its own is the model's reading, log 4). -/
def Obligations.IllegalWordRaisesIllegalCommand : Prop :=
  ∀ (s : State) (w : Word), s.faultMark = none → s.prog[s.pc]? = some w → (∀ i, decode w ≠ .op i) →
    step s = .next { s with faultMark := some w } ∧
    step { s with faultMark := some w } = .fault (.illegalCommand w)

/-- A machine whose fault mark is set has no step and is not final, whatever its stream (R33, R43, R242; D4). -/
def Obligations.FaultedMachineIsStuck : Prop :=
  ∀ (s : State) (w : Word), s.faultMark = some w → step s = .fault (.illegalCommand w) ∧ ¬ s.Final

/-- At the end of the stream an unfaulted machine has no move (R43; D27). The refusal's name is the model's choice
(log 5). -/
def Obligations.EndOfStreamHasNoMove : Prop :=
  ∀ s : State, s.faultMark = none → s.pc = s.prog.length → step s = .refused .endOfStream

/-- A word placed by `withFetchWord` is the one the next step runs, on every state (logs 6 and 7: the model's own
interface). -/
def Obligations.PlacedWordRunsNext : Prop :=
  ∀ (s : State) (w : Word) (i : Instr), decode w = .op i →
    step (s.withFetchWord 16 w.toNat) = exec i (s.withFetchWord 16 w.toNat)

/-- No operation has a failure outcome, from any state: each answers a next state, with no cause recorded (R240), and
that state is one word on (R29, R78: the spec's own decision D3). -/
def Obligations.EveryOperationCompletes : Prop :=
  ∀ (i : Instr) (s : State), ∃ t, exec i s = .next t ∧ t.pc = s.pc + 1 ∧ t.faultMark = s.faultMark

/-- The frame of every step (R26, R65, R33): the pin map, the stream, the host's display state and refusal mark are
never changed by a step, the trace only grows, and a fault mark is never cleared (D4, D11, D29). -/
def Obligations.StepNeverWritesMapStreamOrHostState : Prop :=
  ∀ s t : State, step s = .next t →
    t.pm = s.pm ∧ t.prog = s.prog ∧ t.ds = s.ds ∧ t.href = s.href ∧ s.trace <+: t.trace ∧
    (t.faultMark = none → t.pc = s.pc + 1) ∧
    (∀ w, t.faultMark = some w → { t with faultMark := none } = { s with faultMark := none })

/-! ## Invariants -/

/-- Every step keeps the invariants: the lines rest at 0, after a push the two stages of the register agree, and
`RESP` is 0 or 1 (R28, R31, R32, R52, which the spec marks as decisions or derivations). -/
def Obligations.StepKeepsInvariants : Prop := ∀ s t : State, s.Inv → step s = .next t → t.Inv

/-- The invariants hold after power-up, for every value of the parameters, at reset, and after a construction that is
not a power-up, from any state (R270, R271; D5, D6, D7; log 15). -/
def Obligations.InvariantsHoldAtReset : Prop :=
  (∀ pm shadow sr q prog, (State.construct pm shadow sr q prog).Inv) ∧ State.reset.Inv ∧
  ∀ (s : State) (pm : PinMap) (shadow : Byte) (prog : List Word), (s.reconstruct pm shadow prog).Inv

/-- The external register and the observer are functions of the trace (R20, R30, R40, R250; D1, D7, D9, D10): if the
wires are what the trace so far makes of the wires at the start, a step keeps it so. -/
def Obligations.WiresAreAFunctionOfTheTrace : Prop :=
  ∀ (w : Wire) (s t : State), s.wire = w.replay s.pm s.trace → step s = .next t → t.wire = w.replay t.pm t.trace

/-! ## Reset (R270, R271) -/

/-- What power-up leaves (R270): the values its table gives, for every value of the parameters it leaves open; reset is
power-up with the default map (R24, R26; D5, D6, D7, D11). The empty stream at reset is the model's choice (log 6). -/
def Obligations.PowerUpLeavesTheTableOfReset : Prop :=
  (∀ pm shadow sr q prog,
    let s := State.construct pm shadow sr q prog
    s.shadow = shadow ∧ s.pm = pm ∧ s.wire.data = false ∧ s.wire.clk = false ∧ s.wire.lat = false ∧ s.pc = 0 ∧
    s.pushed = false ∧ s.resp = 0 ∧ s.faultMark = none ∧ s.trace = [] ∧ s.wire.sr = sr ∧ s.wire.q = q ∧
    s.wire.nl = [] ∧ s.initialised = false ∧ s.href = none ∧ s.prog = prog) ∧
  State.reset.pm = { led := 2, rs := 1, en := 3, d0 := 4, d1 := 5, d2 := 6, d3 := 7 } ∧
  State.reset.pc = 0 ∧ State.reset.prog = []

/-- A construction that is not a power-up keeps `SR` and `Q` (R271; D7) and gives every other field of R42 as power-up
does. The model's own counter of draws is kept too (log 15). -/
def Obligations.ReconstructionKeepsTheRegister : Prop :=
  ∀ (s : State) (pm : PinMap) (shadow : Byte) (prog : List Word),
    let t := s.reconstruct pm shadow prog
    t.wire.sr = s.wire.sr ∧ t.wire.q = s.wire.q ∧ t.wire.Idle ∧ t.wire.nl = [] ∧ t.shadow = shadow ∧ t.pm = pm ∧
    t.prog = prog ∧ t.pc = 0 ∧ t.pushed = false ∧ t.resp = 0 ∧ t.faultMark = none ∧ t.trace = [] ∧
    t.initialised = false ∧ t.href = none ∧ t.wire.draws = s.wire.draws

/-! ## The serial encoder (40_link.md) -/

/-- PUSH (R102) with the events of R100 written out, and the whole state after it: `SR = Q = S`, the lines idle, `RESP`
0, everything else unchanged. What the observer makes of the one change of the outputs is inside `latched` and rests on the
spec's decision D9 (R250); no rule is cited for it, here and in the statements of PULSE, LEDON and LEDOFF. -/
def Obligations.PushTransmitsTheShadow : Prop :=
  ∀ s : State, s.wire.Idle →
    exec .push s = .next { s with
      wire := s.wire.latched s.pm s.shadow, trace := s.trace ++ shiftOut s.shadow, pushed := true, resp := 0,
      pc := s.pc + 1 } ∧
    (s.wire.latched s.pm s.shadow).sr = s.shadow ∧ (s.wire.latched s.pm s.shadow).q = s.shadow ∧
    (s.wire.latched s.pm s.shadow).Idle

/-- While a push is shifting the outputs and the observer's log keep their values: they change at no event before the
latch rise, the 49th, and from it on the outputs stand at the value and the log at what a whole push of the value leaves
(R53, marked derived; R51, D8; for the log R250, D9). -/
def Obligations.OutputsHoldUntilTheLatchRise : Prop :=
  ∀ (pm : PinMap) (w : Wire) (v : Byte) (k : Nat), w.Idle →
    (k ≤ 48 → (w.replay pm ((shiftOut v).take k)).q = w.q ∧ (w.replay pm ((shiftOut v).take k)).nl = w.nl) ∧
    (49 ≤ k → (w.replay pm ((shiftOut v).take k)).q = v ∧ (w.replay pm ((shiftOut v).take k)).sr = v ∧
      (w.replay pm ((shiftOut v).take k)).nl = (w.latched pm v).nl)

/-- SETBIT (R103; D12): one bit of the shadow, no event, everything else unchanged but `RESP` and `pc`, from any state. -/
def Obligations.SetbitWritesOneShadowBit : Prop :=
  ∀ (idx : BitIndex) (v : Bool) (s : State), ∃ x : Byte,
    exec (.setbit idx v) s = .next { s with shadow := x, resp := 0, pc := s.pc + 1 } ∧
    ∀ j : BitIndex, bitAt x j = if j = idx then v else bitAt s.shadow j

/-- A mutation is seen by no device until a push, and several mutations may share one push (R280): after two SETBITs the
wires are as before, and the push that follows shows both bits at its one latch rise. Only SETBIT leaves a mutation
unpushed: after every other operation the shadow is unchanged or the outputs equal it. -/
def Obligations.BatchedMutationsAppearAtOnePush : Prop :=
  (∀ (i j : BitIndex) (a b : Bool) (s : State), s.wire.Idle → ∃ t u w : State,
    exec (.setbit i a) s = .next t ∧ exec (.setbit j b) t = .next u ∧ exec .push u = .next w ∧
    t.wire = s.wire ∧ u.wire = s.wire ∧ w.wire.q = u.shadow ∧
    (∃ evs, w.trace = s.trace ++ evs ∧ latchRises evs = 1) ∧
    ∀ k : BitIndex, bitAt w.wire.q k = if k = j then b else if k = i then a else bitAt s.shadow k) ∧
  (∀ (i : Instr) (s : State), s.wire.Idle → (∀ idx v, i ≠ .setbit idx v) →
    ∃ t, exec i s = .next t ∧ (t.shadow = s.shadow ∨ t.wire.q = t.shadow))

/-- After every operation that pushes both stages of the register hold the shadow it leaves (R23, R52 and R59, the last
two marked derived); `SETBIT` and `DELAY` leave the wires as they were. -/
def Obligations.OutputsEqualTheShadowAfterAPush : Prop :=
  ∀ (i : Instr) (s : State), s.wire.Idle → ∃ t, exec i s = .next t ∧
    (pushes i = true → t.wire.sr = t.shadow ∧ t.wire.q = t.shadow ∧ t.pushed = true) ∧
    (pushes i = false → t.wire = s.wire ∧ t.pushed = s.pushed)

/-! ## Nibble strobe and enable pulse (41_nibble.md) -/

/-- PULSE (R123): the three pushes and the waits of R121 written out, and the whole state after it. -/
def Obligations.PulseStrobesEnableOnce : Prop :=
  ∀ s : State, s.wire.Idle →
    let lo := setBit s.shadow s.pm.en false
    let hi := setBit s.shadow s.pm.en true
    exec .pulse s = .next { s with
      shadow := lo, wire := s.wire.latchedAll s.pm [lo, hi, lo], trace := s.trace ++ strobe lo hi, pushed := true,
      resp := 0, pc := s.pc + 1 }

/-- WNIB (R120; D13): the low four bits of `n` to the data lines in order, one push, an enable pulse, and the whole
state after it. -/
def Obligations.WnibWritesAndStrobesTheNibble : Prop :=
  ∀ (n : Byte) (s : State), s.wire.Idle →
    let d := withNibble s.pm s.shadow (n.getLsbD 0) (n.getLsbD 1) (n.getLsbD 2) (n.getLsbD 3)
    let lo := setBit d s.pm.en false
    let hi := setBit d s.pm.en true
    exec (.wnib n) s = .next { s with
      shadow := lo, wire := s.wire.latchedAll s.pm [d, lo, hi, lo], trace := s.trace ++ shiftOut d ++ strobe lo hi,
      pushed := true, resp := 0, pc := s.pc + 1 }

/-- FIDLE (R124; D15): RS and EN high in one push, both low in the next, no other wait, and the whole state after it. -/
def Obligations.FidleForcesRsAndEnable : Prop :=
  ∀ s : State, s.wire.Idle →
    let up := setBit (setBit s.shadow s.pm.rs true) s.pm.en true
    let down := setBit (setBit up s.pm.rs false) s.pm.en false
    exec .fidle s = .next { s with
      shadow := down, wire := s.wire.latchedAll s.pm [up, down], trace := s.trace ++ shiftOut up ++ shiftOut down,
      pushed := true, resp := 0, pc := s.pc + 1 }

/-- The record of FIDLE's fall is a free value, since RS falls with EN (R250, R124; D9, D15): under every pin map the log
grows by exactly one record, which is the draw of the number the counter stands at, and the counter goes on by one. The
counter, and a draw that is a function of it, are the model's choice (log 3); the statement holds for every value of the
draws. -/
def Obligations.FidleRecordIsADraw : Prop :=
  ∀ s : State, s.wire.Idle → ∃ t, exec .fidle s = .next t ∧ t.wire.draws = s.wire.draws + 1 ∧
    t.wire.nl = s.wire.nl ++ [⟨Config.drawRs s.wire.draws, Config.drawNib s.wire.draws⟩]

/-- The three cases of R250 at one push, under every pin map: for each operation that pushes once, from the outputs before
it to the shadow it pushes. No enable fall records nothing; a fall records RS and the data where none of them changes, and
a draw where one does (D9; the counter of draws is the model's choice, log 3). -/
def Obligations.OnePushRecordsItsEnableFall : Prop :=
  ∀ (i : Instr) (s : State), i ∈ [Instr.push, .ledon, .ledoff] → s.wire.Idle → ∃ t, exec i s = .next t ∧
    (¬ (bitAt s.wire.q s.pm.en = true ∧ bitAt t.shadow s.pm.en = false) →
      t.wire.nl = s.wire.nl ∧ t.wire.draws = s.wire.draws) ∧
    (bitAt s.wire.q s.pm.en = true → bitAt t.shadow s.pm.en = false →
      t.wire.nl = s.wire.nl ++ [fallRecord s.pm s.wire.draws s.wire.q t.shadow] ∧
      t.wire.draws = s.wire.draws +
        if ∀ j ∈ [s.pm.rs, s.pm.d0, s.pm.d1, s.pm.d2, s.pm.d3], bitAt s.wire.q j = bitAt t.shadow j then 0 else 1)

/-- PULSE, WNIB and SEND from outputs with EN already high, under a distinct map (R250, R123, R120, R140; D9, D13; log 3).
The first push that lowers EN records the fall of its own: for PULSE the first push; for WNIB and SEND the first push
when EN is low in the shadow at entry, and else the push that starts the first enable pulse, with RS and the data already
in place. After it come the records of the operation's own strobes. -/
def Obligations.StrobesRecordTheFallAtEntry : Prop :=
  ∀ s : State, s.wire.Idle → s.pm.Distinct → bitAt s.wire.q s.pm.en = true →
    (∃ t, exec .pulse s = .next t ∧
      t.wire.nl = s.wire.nl ++ [fallRecord s.pm s.wire.draws s.wire.q (setBit s.shadow s.pm.en false),
        ⟨bitAt s.shadow s.pm.rs, dataNibble s.pm s.shadow⟩]) ∧
    (∀ n : Byte, ∃ t, exec (.wnib n) s = .next t ∧
      let d := withNibble s.pm s.shadow (n.getLsbD 0) (n.getLsbD 1) (n.getLsbD 2) (n.getLsbD 3)
      let strobed : NibbleRecord := ⟨bitAt s.shadow s.pm.rs, n.extractLsb' 0 4⟩
      (bitAt s.shadow s.pm.en = false →
        t.wire.nl = s.wire.nl ++ [fallRecord s.pm s.wire.draws s.wire.q d, strobed]) ∧
      (bitAt s.shadow s.pm.en = true → t.wire.nl = s.wire.nl ++ [strobed, strobed])) ∧
    (∀ (b : Byte) (d : Bool), ∃ t, exec (.send b d) s = .next t ∧
      let high : NibbleRecord := ⟨d, b.extractLsb' 4 4⟩
      let low : NibbleRecord := ⟨d, b.extractLsb' 0 4⟩
      (bitAt s.shadow s.pm.en = false →
        t.wire.nl = s.wire.nl ++
          [fallRecord s.pm s.wire.draws s.wire.q (setBit s.shadow s.pm.rs d), high, low]) ∧
      (bitAt s.shadow s.pm.en = true → t.wire.nl = s.wire.nl ++ [high, high, low]))

/-- PULSE makes the observer record exactly what RS and the data lines carry, when EN is low on the outputs at entry and
the map is distinct (R250, R122, R285; D9). -/
def Obligations.PulseRecordsOneNibble : Prop :=
  ∀ s : State, s.wire.Idle → s.pm.Distinct → bitAt s.wire.q s.pm.en = false →
    ∃ t, exec .pulse s = .next t ∧
      t.wire.nl = s.wire.nl ++ [⟨bitAt s.shadow s.pm.rs, dataNibble s.pm s.shadow⟩]

/-- WNIB's records (R120, R250; D9, D13): one record of the nibble when EN is low in the shadow at entry, and the same
record twice when it is high there (EN low on the outputs in both cases). -/
def Obligations.WnibRecordsItsNibble : Prop :=
  ∀ (n : Byte) (s : State), s.wire.Idle → s.pm.Distinct → bitAt s.wire.q s.pm.en = false →
    ∃ t, exec (.wnib n) s = .next t ∧
      (bitAt s.shadow s.pm.en = false →
        t.wire.nl = s.wire.nl ++ [⟨bitAt s.shadow s.pm.rs, n.extractLsb' 0 4⟩]) ∧
      (bitAt s.shadow s.pm.en = true →
        t.wire.nl = s.wire.nl ++
          [⟨bitAt s.shadow s.pm.rs, n.extractLsb' 0 4⟩, ⟨bitAt s.shadow s.pm.rs, n.extractLsb' 0 4⟩])

/-- Of two roles that share an index the last write wins, and no pin map is refused (R25): every bit of the shadow after
every operation that writes one, for any map. -/
def Obligations.LastWriteWinsUnderAnyPinMap : Prop :=
  ∀ s : State,
    (∃ t, exec .pulse s = .next t ∧
      ∀ j, bitAt t.shadow j = if j = s.pm.en then false else bitAt s.shadow j) ∧
    (∀ n : Byte, ∃ t, exec (.wnib n) s = .next t ∧
      ∀ j, bitAt t.shadow j = strobedBit s.pm (n.extractLsb' 0 4) (bitAt s.shadow j) j) ∧
    (∀ (b : Byte) (d : Bool), ∃ t, exec (.send b d) s = .next t ∧
      ∀ j, bitAt t.shadow j =
        strobedBit s.pm (b.extractLsb' 0 4) (if j = s.pm.rs then d else bitAt s.shadow j) j) ∧
    (∃ t, exec .fidle s = .next t ∧
      ∀ j, bitAt t.shadow j = if j = s.pm.rs ∨ j = s.pm.en then false else bitAt s.shadow j) ∧
    (∃ t, exec .ledon s = .next t ∧
      ∀ j, bitAt t.shadow j = if j = s.pm.led then false else bitAt s.shadow j) ∧
    (∃ t, exec .ledoff s = .next t ∧
      ∀ j, bitAt t.shadow j = if j = s.pm.led then true else bitAt s.shadow j)

/-! ## The byte encoder (42_encoder.md) -/

/-- SEND (R140; D14 for `RESP`): RS, a push, the high nibble, the low nibble, with the nine values pushed and every event
written out, and the whole state after it. -/
def Obligations.SendEncodesTheByte : Prop :=
  ∀ (b : Byte) (d : Bool) (s : State), s.wire.Idle →
    let r := setBit s.shadow s.pm.rs d
    let h := withNibble s.pm r (b.getLsbD 4) (b.getLsbD 5) (b.getLsbD 6) (b.getLsbD 7)
    let hLo := setBit h s.pm.en false
    let hHi := setBit h s.pm.en true
    let l := withNibble s.pm hLo (b.getLsbD 0) (b.getLsbD 1) (b.getLsbD 2) (b.getLsbD 3)
    let lLo := setBit l s.pm.en false
    let lHi := setBit l s.pm.en true
    exec (.send b d) s = .next { s with
      shadow := lLo, wire := s.wire.latchedAll s.pm [r, h, hLo, hHi, hLo, l, lLo, lHi, lLo],
      trace := s.trace ++ shiftOut r ++ shiftOut h ++ strobe hLo hHi ++ shiftOut l ++ strobe lLo lHi,
      pushed := true, resp := if d then 1 else 0, pc := s.pc + 1 }

/-- SEND's records (R141, R140, R250; D9): `(d, high)` then `(d, low)`, which put together are the byte; with EN high in
the shadow at entry the first of them twice. -/
def Obligations.SendRecordsHighThenLowNibble : Prop :=
  ∀ (b : Byte) (d : Bool) (s : State), s.wire.Idle → s.pm.Distinct → bitAt s.wire.q s.pm.en = false →
    ∃ (t : State) (hi lo : Nibble), exec (.send b d) s = .next t ∧ hi ++ lo = b ∧
      (bitAt s.shadow s.pm.en = false → t.wire.nl = s.wire.nl ++ [⟨d, hi⟩, ⟨d, lo⟩]) ∧
      (bitAt s.shadow s.pm.en = true → t.wire.nl = s.wire.nl ++ [⟨d, hi⟩, ⟨d, hi⟩, ⟨d, lo⟩])

/-- The nine latch rises of one SEND, in nanoseconds of recorded waits (R142, R122, marked derived). With EN low in the
shadow and on the outputs at entry and a distinct map: RS has its value from the first on, the data lines carry the high
nibble from the second and the low nibble from the sixth, and the enable output is high from the fourth to the fifth and
from the eighth to the ninth only: 79 µs after RS and 53 µs after the high nibble, each pulse 27 µs wide. -/
def Obligations.SendSettlesBeforeEnableRises : Prop :=
  ∀ (b : Byte) (d : Bool) (s : State), s.wire.Idle → ∃ (t : State) (evs : List Event),
    exec (.send b d) s = .next t ∧ t.trace = s.trace ++ evs ∧
    (latchRisesFrom s.pm s.wire 0 evs).map (·.at_ns) =
      [24000, 50000, 76000, 103000, 130000, 206000, 232000, 259000, 286000] ∧
    (s.pm.Distinct → bitAt s.shadow s.pm.en = false → bitAt s.wire.q s.pm.en = false →
      (latchRisesFrom s.pm s.wire 0 evs).map (fun l => bitAt l.qn s.pm.en) =
        [false, false, false, true, false, false, false, true, false] ∧
      (∀ l ∈ latchRisesFrom s.pm s.wire 0 evs, bitAt l.qn s.pm.rs = d) ∧
      (latchRisesFrom s.pm s.wire 0 evs).map (fun l => dataNibble s.pm l.qn) =
        dataNibble s.pm s.shadow :: (List.replicate 4 (b.extractLsb' 4 4) ++ List.replicate 4 (b.extractLsb' 0 4)))

/-- PULSE, WNIB and SEND meet T1 and T2, and end at least `T_SETTLE` after their last fall, when EN is low in the shadow
and on the outputs at entry and the map is distinct (R282, R283, R122; D26). -/
def Obligations.StrobesMeetTheirTiming : Prop :=
  ∀ (i : Instr) (s : State), (i = .pulse ∨ (∃ n, i = .wnib n) ∨ ∃ b d, i = .send b d) → s.wire.Idle →
    s.pm.Distinct → bitAt s.shadow s.pm.en = false → bitAt s.wire.q s.pm.en = false →
    ∃ (t : State) (evs : List Event), exec i s = .next t ∧ t.trace = s.trace ++ evs ∧
      enableHeld s.pm none (latchRisesFrom s.pm s.wire 0 evs) = true ∧
      settleKept s.pm none (latchRisesFrom s.pm s.wire 0 evs) = true ∧
      ∀ l ∈ latchRisesFrom s.pm s.wire 0 evs, l.at_ns + Config.tSettle ≤ waitSum evs

/-! ## LED side channel and timing control (43_side_and_timing.md) -/

/-- LEDON writes 0 to the LED bit and pushes once (R162): the whole state after it. -/
def Obligations.LedonWritesZeroAndPushes : Prop :=
  ∀ s : State, s.wire.Idle →
    let x := setBit s.shadow s.pm.led false
    exec .ledon s = .next { s with
      shadow := x, wire := s.wire.latched s.pm x, trace := s.trace ++ shiftOut x, pushed := true, resp := 0,
      pc := s.pc + 1 }

/-- LEDOFF writes 1 to the LED bit and pushes once (R163): the whole state after it. -/
def Obligations.LedoffWritesOneAndPushes : Prop :=
  ∀ s : State, s.wire.Idle →
    let x := setBit s.shadow s.pm.led true
    exec .ledoff s = .next { s with
      shadow := x, wire := s.wire.latched s.pm x, trace := s.trace ++ shiftOut x, pushed := true, resp := 0,
      pc := s.pc + 1 }

/-- LEDON and then LEDOFF change the LED bit alone, with one push each; RS, EN and the data bits of a distinct map keep
their values (R164, marked derived). -/
def Obligations.LedToggleChangesOneBit : Prop :=
  ∀ s : State, ∃ (t u : State) (xs ys : List Event), exec .ledon s = .next t ∧ exec .ledoff t = .next u ∧
    bitAt t.shadow s.pm.led = false ∧ bitAt u.shadow s.pm.led = true ∧
    (∀ j, j ≠ s.pm.led → bitAt t.shadow j = bitAt s.shadow j ∧ bitAt u.shadow j = bitAt s.shadow j) ∧
    (s.pm.Distinct → ∀ j ∈ [s.pm.rs, s.pm.en, s.pm.d0, s.pm.d1, s.pm.d2, s.pm.d3],
      bitAt u.shadow j = bitAt s.shadow j) ∧
    t.trace = s.trace ++ xs ∧ u.trace = t.trace ++ ys ∧ latchRises xs = 1 ∧ latchRises ys = 1

/-- DELAY (R160; D16): one wait of `c` microseconds or milliseconds, recorded for every count, from any state; the lines,
the register and the shadow unchanged. -/
def Obligations.DelayRecordsOneWait : Prop :=
  ∀ (c : BitVec 11) (s : State),
    exec (.delay .us c) s =
      .next { s with trace := s.trace ++ [.wait (c.toNat * 1000)], resp := 0, pc := s.pc + 1 } ∧
    exec (.delay .ms c) s =
      .next { s with trace := s.trace ++ [.wait (c.toNat * 1000000)], resp := 0, pc := s.pc + 1 }

/-- The events, pushes and recorded waits of every operation (R290, R101, R143, marked derived), from any state. -/
def Obligations.EveryOperationCostsItsTableRow : Prop :=
  ∀ (i : Instr) (s : State), ∃ (t : State) (evs : List Event), exec i s = .next t ∧ t.trace = s.trace ++ evs ∧
    (evs.length, latchRises evs, waitSum evs) = cost i

/-- `RESP` is 1 after `SEND` with d = 1 and 0 after every other operation (R32; D14). -/
def Obligations.RespReportsWritesOnly : Prop :=
  ∀ (i : Instr) (s : State), ∃ t, exec i s = .next t ∧
    ((∃ b, i = .send b true) → t.resp = 1) ∧ ((∀ b, i ≠ .send b true) → t.resp = 0)

/-! ## Host sequences (44_init_sequence.md, 45_host_ops.md), for every value of the command bytes (R201) -/

/-- `begin` with 1 to 4 lines emits its fourteen words in order and sets every field of `DS`, from any state (R180 to
R188, R190, R191; D17, D22, D24; that `DS` changes as the words are emitted is the model's reading, log 8). -/
def Obligations.BeginEmitsItsFourteenWords : Prop :=
  ∀ (cb : Config.CommandBytes) (s : State) (cols lines dotSize : Byte), 1 ≤ lines.toNat → lines.toNat ≤ 4 →
    ∃ d : DisplayState,
      hostCall cb (.begin cols lines dotSize) s = { s with
        prog := s.prog ++ [0x9864, 0x8000, 0x3003, 0x9805, 0x3003, 0x9805, 0x3003, 0x9801, 0x3002,
          cmdWord (cb.funcset (decide (1 < lines.toNat)) (decide (lines.toNat = 1 ∧ dotSize ≠ 0))),
          cmdWord (cb.dispctl true false false), cmdWord cb.clear, 0x9802, cmdWord (cb.entry true false)],
        ds := some d } ∧
      d.lines.count = lines.toNat ∧ d.twoLine = decide (1 < lines.toNat) ∧
      d.font10 = decide (lines.toNat = 1 ∧ dotSize ≠ 0) ∧ d.cols = cols ∧ d.display = true ∧ d.cursor = false ∧
      d.blink = false ∧ d.ltr = true ∧ d.autoscroll = false

/-- `begin` with no lines or more than four is refused: no word, and `HREF` set (R181, R243; D21). -/
def Obligations.BeginRefusesOtherLineCounts : Prop :=
  ∀ (cb : Config.CommandBytes) (s : State) (cols lines dotSize : Byte), (lines.toNat = 0 ∨ 4 < lines.toNat) →
    hostCall cb (.begin cols lines dotSize) s = { s with href := some (.linesOutOfRange lines) }

/-- Before the first `begin` every LCD operation is refused, with `HREF` set and no word emitted; the LED operations emit
their word and leave `DS` as it is from every state, before `begin` and after it (R287, R200, R214; D2, D35). -/
def Obligations.LcdOperationsNeedBegin : Prop :=
  ∀ (cb : Config.CommandBytes) (s : State),
    (s.initialised = false →
      ∀ op, allowedBeforeBegin op = false → hostCall cb op s = { s with href := some .beforeBegin }) ∧
    hostCall cb .ledOn s = { s with prog := s.prog ++ [0x6000] } ∧
    hostCall cb .ledOff s = { s with prog := s.prog ++ [0x7000] }

/-- `clear` and `home` each emit their command and a delay of 2 ms, and leave `DS` unchanged (R203, R204). The
layout of the words, here and in the next statements, is the spec's decision D2 (R71, R77). -/
def Obligations.ClearAndHomeWaitTwoMilliseconds : Prop :=
  ∀ (cb : Config.CommandBytes) (s : State), s.initialised = true →
    hostCall cb .clear s = { s with prog := s.prog ++ [cmdWord cb.clear, 0x9802] } ∧
    hostCall cb .home s = { s with prog := s.prog ++ [cmdWord cb.home, 0x9802] }

/-- The flag operations set or clear their one flag and send the whole control word (R205, R206, R207, R209, R210), and
the scroll operations send the shift command with its direction and change no flag (R208). -/
def Obligations.FlagOperationsSendTheWholeControlWord : Prop :=
  ∀ (cb : Config.CommandBytes) (s : State) (d : DisplayState), s.ds = some d →
    hostCall cb .display s = { s with
      prog := s.prog ++ [cmdWord (cb.dispctl true d.cursor d.blink)], ds := some { d with display := true } } ∧
    hostCall cb .noDisplay s = { s with
      prog := s.prog ++ [cmdWord (cb.dispctl false d.cursor d.blink)], ds := some { d with display := false } } ∧
    hostCall cb .cursor s = { s with
      prog := s.prog ++ [cmdWord (cb.dispctl d.display true d.blink)], ds := some { d with cursor := true } } ∧
    hostCall cb .noCursor s = { s with
      prog := s.prog ++ [cmdWord (cb.dispctl d.display false d.blink)], ds := some { d with cursor := false } } ∧
    hostCall cb .blink s = { s with
      prog := s.prog ++ [cmdWord (cb.dispctl d.display d.cursor true)], ds := some { d with blink := true } } ∧
    hostCall cb .noBlink s = { s with
      prog := s.prog ++ [cmdWord (cb.dispctl d.display d.cursor false)], ds := some { d with blink := false } } ∧
    hostCall cb .leftToRight s = { s with
      prog := s.prog ++ [cmdWord (cb.entry true d.autoscroll)], ds := some { d with ltr := true } } ∧
    hostCall cb .rightToLeft s = { s with
      prog := s.prog ++ [cmdWord (cb.entry false d.autoscroll)], ds := some { d with ltr := false } } ∧
    hostCall cb .autoscroll s = { s with
      prog := s.prog ++ [cmdWord (cb.entry d.ltr true)], ds := some { d with autoscroll := true } } ∧
    hostCall cb .noAutoscroll s = { s with
      prog := s.prog ++ [cmdWord (cb.entry d.ltr false)], ds := some { d with autoscroll := false } } ∧
    hostCall cb .scrollDisplayLeft s = { s with prog := s.prog ++ [cmdWord (cb.shift false)] } ∧
    hostCall cb .scrollDisplayRight s = { s with prog := s.prog ++ [cmdWord (cb.shift true)] }

/-- `display` twice leaves `DS` as once, and `noDisplay` then `display` restores the display-on bit (R205): after `begin`
each of the three leaves `DS` with the display on and every other field as it was; before it each leaves `DS` without a
value. -/
def Obligations.DisplayIsIdempotent : Prop :=
  ∀ (cb : Config.CommandBytes) (s : State),
    (hostCalls cb [.display, .display] s).ds = (hostCall cb .display s).ds ∧
    (hostCalls cb [.noDisplay, .display] s).ds = (hostCall cb .display s).ds ∧
    (s.ds = none → (hostCall cb .display s).ds = none) ∧
    ∀ d : DisplayState, s.ds = some d →
      (hostCall cb .display s).ds = some { d with display := true } ∧
      (hostCalls cb [.display, .display] s).ds = some { d with display := true } ∧
      (hostCalls cb [.noDisplay, .display] s).ds = some { d with display := true }

/-- `setCursor` (R211, R212; D23): the row clamped to the last line, its base from the table, an 8-bit sum with the column,
`DS` unchanged. -/
def Obligations.SetCursorClampsTheRow : Prop :=
  ∀ (cb : Config.CommandBytes) (s : State) (d : DisplayState) (col row : Byte), s.ds = some d → ∃ addr : Byte,
    hostCall cb (.setCursor col row) s = { s with prog := s.prog ++ [cmdWord (cb.ddram addr)] } ∧
    (∀ (r : Nat) (base : Byte), r = (if row.toNat ≥ d.lines.count then d.lines.count - 1 else row.toNat) →
      ([0x00, 0x40, 0x14, 0x54] : List Byte)[r]? = some base → addr.toNat = (base.toNat + col.toNat) % 256) ∧
    d.lines.count ∈ [1, 2, 3, 4]

/-- `createChar` (R213; D24): the address of the masked slot, then exactly the eight glyph rows as data, `DS` unchanged. -/
def Obligations.CreateCharMasksTheSlot : Prop :=
  ∀ (cb : Config.CommandBytes) (s : State) (slot : Byte) (glyph : Vector Byte 8), s.initialised = true →
    ∃ (addr : BitVec 6) (rows : List Word),
      hostCall cb (.createChar slot glyph) s = { s with prog := s.prog ++ cmdWord (cb.cgram addr) :: rows } ∧
      addr.toNat = slot.toNat % 8 * 8 ∧ rows.length = 8 ∧ ∀ k : Fin 8, rows[k.val]? = some (writeWord glyph[k])

/-- `command` and `write` emit their one word and leave `DS` unchanged, and the block's `RESP` after the word of `write` is
1 (R215). -/
def Obligations.CommandAndWriteEmitOneWord : Prop :=
  ∀ (cb : Config.CommandBytes) (s : State) (b : Byte), s.initialised = true →
    hostCall cb (.command b) s = { s with prog := s.prog ++ [cmdWord b] } ∧
    hostCall cb (.write b) s = { s with prog := s.prog ++ [writeWord b] } ∧
    ∀ u : State, u.faultMark = none → u.prog[u.pc]? = some (writeWord b) → ∃ t, step u = .next t ∧ t.resp = 1

/-- A host call changes nothing of the block, the register or the observer; the stream only grows, and a refusal mark is
never cleared (R20, R243; logs 8 and 9). -/
def Obligations.HostCallsLeaveTheBlockAlone : Prop :=
  ∀ (cb : Config.CommandBytes) (op : HostOp) (s : State),
    let t := hostCall cb op s
    t.shadow = s.shadow ∧ t.pm = s.pm ∧ t.wire = s.wire ∧ t.pc = s.pc ∧ t.pushed = s.pushed ∧ t.resp = s.resp ∧
    t.faultMark = s.faultMark ∧ t.trace = s.trace ∧ s.prog <+: t.prog ∧ (s.href ≠ none → t.href ≠ none) ∧
    (t.href ≠ s.href → t.prog = s.prog ∧ t.ds = s.ds)

/-- The words of `begin` meet the host conditions (R284, R286, R287, R288; D26), when the function-set, display-control
and entry-mode bytes it sends are not the clear or the home byte. The reading of the conditions on a stream of words is the
model's (log 13). -/
def Obligations.BeginMeetsTheHostConditions : Prop :=
  ∀ (cb : Config.CommandBytes) (s : State) (cols lines dotSize : Byte), s.prog = [] → 1 ≤ lines.toNat →
    lines.toNat ≤ 4 → (∀ two font, cb.funcset two font ≠ cb.clear ∧ cb.funcset two font ≠ cb.home) →
    cb.dispctl true false false ≠ cb.clear → cb.dispctl true false false ≠ cb.home →
    cb.entry true false ≠ cb.clear → cb.entry true false ≠ cb.home →
    hostOK cb (hostCall cb (.begin cols lines dotSize) s).prog = true

/-! ## Several instances (R252; D25) -/

/-- A step of one instance changes no other, and two instances on one line have no move (R252; D25; I13 of
93_implementation_defined.md; that the latch line counts too is the model's reading, log 14): a step of the system is a
step of the instance it names, on lines that all instances keep; where two share a line every step is refused; an instance
is added exactly when it shares no line with one already there, and the lines are then still separate. -/
def Obligations.InstancesShareNothing : Prop :=
  (∀ (sys sys' : List DisplayInstance) (k : Nat), stepInstance sys k = .next sys' →
    (∀ j, j ≠ k → sys'[j]? = sys[j]?) ∧ (SeparateLines sys' ∧ SeparateLines sys) ∧
    ∃ d e, sys[k]? = some d ∧ sys'[k]? = some e ∧ step d.state = .next e.state ∧ e.pins = d.pins) ∧
  (∀ (sys : List DisplayInstance) (k : Nat) (d : DisplayInstance) (s : State), SeparateLines sys →
    sys[k]? = some d → step d.state = .next s →
    ∃ sys', stepInstance sys k = .next sys' ∧ sys'[k]? = some { d with state := s }) ∧
  (∀ sys : List DisplayInstance, ¬ SeparateLines sys → ∀ k, stepInstance sys k = .refused .sharedLine) ∧
  (∀ (sys : List DisplayInstance) (d : DisplayInstance),
    addInstance sys d = none ↔ ∃ e ∈ sys, ∃ p, p ∈ d.pins ∧ p ∈ e.pins) ∧
  ∀ (sys sys' : List DisplayInstance) (d : DisplayInstance), SeparateLines sys → addInstance sys d = some sys' →
    SeparateLines sys' ∧ sys' = sys ++ [d]
end

