-- ==== Sys2Proof/Laws/Instances.lean ====
section
/-! SUPPORT. Laws of several instances (R252): when no line is shared, and all that a step of one can do. -/

namespace Sys2Proof.Machine

/-- Two instances drive no common line. -/
theorem DisplayInstance.apart_iff (d e : DisplayInstance) : d.apart e = true ↔ ∀ p ∈ d.pins, p ∉ e.pins := by
  simp [DisplayInstance.apart]

theorem DisplayInstance.apart_symm {d e : DisplayInstance} (h : d.apart e = true) : e.apart d = true :=
  (apart_iff e d).2 fun p hp hq => (apart_iff d e).1 h p hq hp

/-- A list whose instances drive no common line, pair by pair. -/
theorem linesApart_iff_pairwise (sys : List DisplayInstance) :
    linesApart sys = true ↔ sys.Pairwise fun d e => d.apart e = true := by
  induction sys with
  | nil => simp [linesApart]
  | cons d ds ih => simp [linesApart, ih]

/-- The lines stay apart when an instance is replaced by one on the same lines. -/
theorem linesApart_set (sys : List DisplayInstance) (k : Nat) (d e : DisplayInstance) (hk : sys[k]? = some d)
    (hp : e.pins = d.pins) : linesApart (sys.set k e) = linesApart sys := by
  have left : e.apart = d.apart := by funext x; simp [DisplayInstance.apart, hp]
  have right (x : DisplayInstance) : x.apart e = x.apart d := by simp [DisplayInstance.apart, hp]
  have all (x : DisplayInstance) (ys : List DisplayInstance) (j : Nat) (hj : ys[j]? = some d) :
      (ys.set j e).all x.apart = ys.all x.apart := by
    induction ys generalizing j with
    | nil => rfl
    | cons y ys ih =>
      cases j with
      | zero => obtain rfl : y = d := by simpa using hj
                simp [right]
      | succ j => simp [ih j (by simpa using hj)]
  induction sys generalizing k with
  | nil => rfl
  | cons y ys ih =>
    cases k with
    | zero =>
      obtain rfl : y = d := by simpa using hk
      simp [linesApart, left]
    | succ k =>
      have hk' : ys[k]? = some d := by simpa using hk
      simp [linesApart, ih k hk', all y ys k hk']

/-- All that a step of one instance can do (R252). -/
theorem stepInstance_cases (sys : List DisplayInstance) (k : Nat) :
    (linesApart sys = false ∧ stepInstance sys k = .refused .sharedLine) ∨
    (linesApart sys = true ∧ sys[k]? = none ∧ stepInstance sys k = .refused .noInstance) ∨
    (∃ d s, linesApart sys = true ∧ sys[k]? = some d ∧ step d.state = .next s ∧
      stepInstance sys k = .next (sys.set k { d with state := s })) ∨
    (∃ d r, linesApart sys = true ∧ sys[k]? = some d ∧ step d.state = .fault r ∧
      stepInstance sys k = .fault r) ∨
    (∃ d r, linesApart sys = true ∧ sys[k]? = some d ∧ step d.state = .refused r ∧
      stepInstance sys k = .refused (.ofInstance r)) := by
  rcases ha : linesApart sys with _ | _
  · exact .inl ⟨rfl, by simp [stepInstance, ha]⟩
  rcases hk : sys[k]? with _ | d
  · exact .inr (.inl ⟨rfl, rfl, by simp [stepInstance, ha, hk]⟩)
  rcases hs : step d.state with s | r | r
  · exact .inr (.inr (.inl ⟨d, s, rfl, rfl, hs, by simp [stepInstance, ha, hk, hs]⟩))
  · exact .inr (.inr (.inr (.inl ⟨d, r, rfl, rfl, hs, by simp [stepInstance, ha, hk, hs]⟩)))
  · exact .inr (.inr (.inr (.inr ⟨d, r, rfl, rfl, hs, by simp [stepInstance, ha, hk, hs]⟩)))

end Sys2Proof.Machine
end

