-- ==== Sys2Proof/Laws/State.lean ====
section
/-! SUPPORT. One lemma per field per update of the state, so that no later proof unfolds an update. -/

namespace Sys2Proof.Machine

variable (s : State)

@[simp] theorem State.emit_shadow (evs : List Event) : (s.emit evs).shadow = s.shadow := rfl
@[simp] theorem State.emit_pm (evs : List Event) : (s.emit evs).pm = s.pm := rfl
@[simp] theorem State.emit_wire (evs : List Event) : (s.emit evs).wire = s.wire.replay s.pm evs := rfl
@[simp] theorem State.emit_pc (evs : List Event) : (s.emit evs).pc = s.pc := rfl
@[simp] theorem State.emit_prog (evs : List Event) : (s.emit evs).prog = s.prog := rfl
@[simp] theorem State.emit_pushed (evs : List Event) : (s.emit evs).pushed = s.pushed := rfl
@[simp] theorem State.emit_resp (evs : List Event) : (s.emit evs).resp = s.resp := rfl
@[simp] theorem State.emit_faultMark (evs : List Event) : (s.emit evs).faultMark = s.faultMark := rfl
@[simp] theorem State.emit_trace (evs : List Event) : (s.emit evs).trace = s.trace ++ evs := rfl
@[simp] theorem State.emit_ds (evs : List Event) : (s.emit evs).ds = s.ds := rfl
@[simp] theorem State.emit_href (evs : List Event) : (s.emit evs).href = s.href := rfl

@[simp] theorem State.pause_shadow (ns : Nat) : (s.pause ns).shadow = s.shadow := rfl
@[simp] theorem State.pause_pm (ns : Nat) : (s.pause ns).pm = s.pm := rfl
@[simp] theorem State.pause_wire (ns : Nat) : (s.pause ns).wire = s.wire := rfl
@[simp] theorem State.pause_pc (ns : Nat) : (s.pause ns).pc = s.pc := rfl
@[simp] theorem State.pause_prog (ns : Nat) : (s.pause ns).prog = s.prog := rfl
@[simp] theorem State.pause_pushed (ns : Nat) : (s.pause ns).pushed = s.pushed := rfl
@[simp] theorem State.pause_resp (ns : Nat) : (s.pause ns).resp = s.resp := rfl
@[simp] theorem State.pause_faultMark (ns : Nat) : (s.pause ns).faultMark = s.faultMark := rfl
@[simp] theorem State.pause_trace (ns : Nat) : (s.pause ns).trace = s.trace ++ [.wait ns] := rfl
@[simp] theorem State.pause_ds (ns : Nat) : (s.pause ns).ds = s.ds := rfl
@[simp] theorem State.pause_href (ns : Nat) : (s.pause ns).href = s.href := rfl

@[simp] theorem State.writeBit_shadow (i : BitIndex) (v : Bool) : (s.writeBit i v).shadow = setBit s.shadow i v := rfl
@[simp] theorem State.writeBit_pm (i : BitIndex) (v : Bool) : (s.writeBit i v).pm = s.pm := rfl
@[simp] theorem State.writeBit_wire (i : BitIndex) (v : Bool) : (s.writeBit i v).wire = s.wire := rfl
@[simp] theorem State.writeBit_pc (i : BitIndex) (v : Bool) : (s.writeBit i v).pc = s.pc := rfl
@[simp] theorem State.writeBit_prog (i : BitIndex) (v : Bool) : (s.writeBit i v).prog = s.prog := rfl
@[simp] theorem State.writeBit_pushed (i : BitIndex) (v : Bool) : (s.writeBit i v).pushed = s.pushed := rfl
@[simp] theorem State.writeBit_resp (i : BitIndex) (v : Bool) : (s.writeBit i v).resp = s.resp := rfl
@[simp] theorem State.writeBit_faultMark (i : BitIndex) (v : Bool) : (s.writeBit i v).faultMark = s.faultMark := rfl
@[simp] theorem State.writeBit_trace (i : BitIndex) (v : Bool) : (s.writeBit i v).trace = s.trace := rfl
@[simp] theorem State.writeBit_ds (i : BitIndex) (v : Bool) : (s.writeBit i v).ds = s.ds := rfl
@[simp] theorem State.writeBit_href (i : BitIndex) (v : Bool) : (s.writeBit i v).href = s.href := rfl

@[simp] theorem State.writeData_shadow (n : Nibble) : (s.writeData n).shadow = setNibble s.pm s.shadow n := rfl
@[simp] theorem State.writeData_pm (n : Nibble) : (s.writeData n).pm = s.pm := rfl
@[simp] theorem State.writeData_wire (n : Nibble) : (s.writeData n).wire = s.wire := rfl
@[simp] theorem State.writeData_pc (n : Nibble) : (s.writeData n).pc = s.pc := rfl
@[simp] theorem State.writeData_prog (n : Nibble) : (s.writeData n).prog = s.prog := rfl
@[simp] theorem State.writeData_pushed (n : Nibble) : (s.writeData n).pushed = s.pushed := rfl
@[simp] theorem State.writeData_resp (n : Nibble) : (s.writeData n).resp = s.resp := rfl
@[simp] theorem State.writeData_faultMark (n : Nibble) : (s.writeData n).faultMark = s.faultMark := rfl
@[simp] theorem State.writeData_trace (n : Nibble) : (s.writeData n).trace = s.trace := rfl
@[simp] theorem State.writeData_ds (n : Nibble) : (s.writeData n).ds = s.ds := rfl
@[simp] theorem State.writeData_href (n : Nibble) : (s.writeData n).href = s.href := rfl

@[simp] theorem State.push_shadow : (s.push).shadow = s.shadow := rfl
@[simp] theorem State.push_pm : (s.push).pm = s.pm := rfl
@[simp] theorem State.push_wire : (s.push).wire = s.wire.replay s.pm (pushEvents s.shadow) := rfl
@[simp] theorem State.push_pc : (s.push).pc = s.pc := rfl
@[simp] theorem State.push_prog : (s.push).prog = s.prog := rfl
@[simp] theorem State.push_pushed : (s.push).pushed = true := rfl
@[simp] theorem State.push_resp : (s.push).resp = s.resp := rfl
@[simp] theorem State.push_faultMark : (s.push).faultMark = s.faultMark := rfl
@[simp] theorem State.push_trace : (s.push).trace = s.trace ++ pushEvents s.shadow := rfl
@[simp] theorem State.push_ds : (s.push).ds = s.ds := rfl
@[simp] theorem State.push_href : (s.push).href = s.href := rfl

@[simp] theorem State.retire_shadow (r : Byte) : (s.retire r).shadow = s.shadow := rfl
@[simp] theorem State.retire_pm (r : Byte) : (s.retire r).pm = s.pm := rfl
@[simp] theorem State.retire_wire (r : Byte) : (s.retire r).wire = s.wire := rfl
@[simp] theorem State.retire_pc (r : Byte) : (s.retire r).pc = s.pc + 1 := rfl
@[simp] theorem State.retire_prog (r : Byte) : (s.retire r).prog = s.prog := rfl
@[simp] theorem State.retire_pushed (r : Byte) : (s.retire r).pushed = s.pushed := rfl
@[simp] theorem State.retire_resp (r : Byte) : (s.retire r).resp = r := rfl
@[simp] theorem State.retire_faultMark (r : Byte) : (s.retire r).faultMark = s.faultMark := rfl
@[simp] theorem State.retire_trace (r : Byte) : (s.retire r).trace = s.trace := rfl
@[simp] theorem State.retire_ds (r : Byte) : (s.retire r).ds = s.ds := rfl
@[simp] theorem State.retire_href (r : Byte) : (s.retire r).href = s.href := rfl

@[simp] theorem State.raiseIllegal_shadow (w : Word) : (s.raiseIllegal w).shadow = s.shadow := rfl
@[simp] theorem State.raiseIllegal_pm (w : Word) : (s.raiseIllegal w).pm = s.pm := rfl
@[simp] theorem State.raiseIllegal_wire (w : Word) : (s.raiseIllegal w).wire = s.wire := rfl
@[simp] theorem State.raiseIllegal_pc (w : Word) : (s.raiseIllegal w).pc = s.pc := rfl
@[simp] theorem State.raiseIllegal_prog (w : Word) : (s.raiseIllegal w).prog = s.prog := rfl
@[simp] theorem State.raiseIllegal_pushed (w : Word) : (s.raiseIllegal w).pushed = s.pushed := rfl
@[simp] theorem State.raiseIllegal_resp (w : Word) : (s.raiseIllegal w).resp = s.resp := rfl
@[simp] theorem State.raiseIllegal_faultMark (w : Word) : (s.raiseIllegal w).faultMark = some w := rfl
@[simp] theorem State.raiseIllegal_trace (w : Word) : (s.raiseIllegal w).trace = s.trace := rfl
@[simp] theorem State.raiseIllegal_ds (w : Word) : (s.raiseIllegal w).ds = s.ds := rfl
@[simp] theorem State.raiseIllegal_href (w : Word) : (s.raiseIllegal w).href = s.href := rfl

@[simp] theorem State.withFetchWord_shadow (nbits w : Nat) : (s.withFetchWord nbits w).shadow = s.shadow := rfl
@[simp] theorem State.withFetchWord_pm (nbits w : Nat) : (s.withFetchWord nbits w).pm = s.pm := rfl
@[simp] theorem State.withFetchWord_wire (nbits w : Nat) : (s.withFetchWord nbits w).wire = s.wire := rfl
@[simp] theorem State.withFetchWord_pc (nbits w : Nat) : (s.withFetchWord nbits w).pc = s.pc := rfl
@[simp] theorem State.withFetchWord_prog (nbits w : Nat) : (s.withFetchWord nbits w).prog = s.prog.take s.pc ++ zeroWords (s.pc - s.prog.length) ++ tableWord nbits w :: s.prog.drop (s.pc + 1) := rfl
@[simp] theorem State.withFetchWord_pushed (nbits w : Nat) : (s.withFetchWord nbits w).pushed = s.pushed := rfl
@[simp] theorem State.withFetchWord_resp (nbits w : Nat) : (s.withFetchWord nbits w).resp = s.resp := rfl
@[simp] theorem State.withFetchWord_faultMark (nbits w : Nat) : (s.withFetchWord nbits w).faultMark = none := rfl
@[simp] theorem State.withFetchWord_trace (nbits w : Nat) : (s.withFetchWord nbits w).trace = s.trace := rfl
@[simp] theorem State.withFetchWord_ds (nbits w : Nat) : (s.withFetchWord nbits w).ds = s.ds := rfl
@[simp] theorem State.withFetchWord_href (nbits w : Nat) : (s.withFetchWord nbits w).href = s.href := rfl

@[simp] theorem State.pulseEnable_pm : (s.pulseEnable).pm = s.pm := rfl
@[simp] theorem State.pulseEnable_pc : (s.pulseEnable).pc = s.pc := rfl
@[simp] theorem State.pulseEnable_prog : (s.pulseEnable).prog = s.prog := rfl
@[simp] theorem State.pulseEnable_pushed : (s.pulseEnable).pushed = true := rfl
@[simp] theorem State.pulseEnable_resp : (s.pulseEnable).resp = s.resp := rfl
@[simp] theorem State.pulseEnable_faultMark : (s.pulseEnable).faultMark = s.faultMark := rfl
@[simp] theorem State.pulseEnable_ds : (s.pulseEnable).ds = s.ds := rfl
@[simp] theorem State.pulseEnable_href : (s.pulseEnable).href = s.href := rfl

@[simp] theorem State.writeNibble_pm (n : Nibble) : (s.writeNibble n).pm = s.pm := rfl
@[simp] theorem State.writeNibble_pc (n : Nibble) : (s.writeNibble n).pc = s.pc := rfl
@[simp] theorem State.writeNibble_prog (n : Nibble) : (s.writeNibble n).prog = s.prog := rfl
@[simp] theorem State.writeNibble_pushed (n : Nibble) : (s.writeNibble n).pushed = true := rfl
@[simp] theorem State.writeNibble_resp (n : Nibble) : (s.writeNibble n).resp = s.resp := rfl
@[simp] theorem State.writeNibble_faultMark (n : Nibble) : (s.writeNibble n).faultMark = s.faultMark := rfl
@[simp] theorem State.writeNibble_ds (n : Nibble) : (s.writeNibble n).ds = s.ds := rfl
@[simp] theorem State.writeNibble_href (n : Nibble) : (s.writeNibble n).href = s.href := rfl

end Sys2Proof.Machine
end

