-- ==== Sys2Proof/Laws/Operands.lean ====
section
/-! SUPPORT. Laws of the bit helpers: reading after writing one bit, writes that cancel or commute, the nibble
writes, and the external register's shift. -/

namespace Sys2Proof.Machine

/-- Two bytes with the same eight bits are equal. -/
theorem byte_ext {x y : Byte} (h : ∀ i, bitAt x i = bitAt y i) : x = y := by
  apply BitVec.eq_of_getLsbD_eq
  intro k hk
  have := h (BitVec.ofNat 3 k)
  simpa [bitAt, Nat.mod_eq_of_lt hk] using this

/-- A bit read after a write is the value written, and every other bit is as before (R103). -/
@[simp] theorem bitAt_setBit (x : Byte) (i j : BitIndex) (v : Bool) :
    bitAt (setBit x i v) j = if j = i then v else bitAt x j := by
  have hj : j.toNat < 8 := j.isLt
  have h1 : (j = i) ↔ j.toNat = i.toNat := BitVec.toNat_inj.symm
  cases v <;> simp [setBit, bitAt, h1, hj, Nat.sub_eq_zero_iff_le] <;>
    by_cases h : j.toNat = i.toNat <;> simp [h]
  all_goals omega

theorem bitAt_setBit_self (x : Byte) (i : BitIndex) (v : Bool) : bitAt (setBit x i v) i = v := by simp

theorem bitAt_setBit_of_ne (x : Byte) {i j : BitIndex} (v : Bool) (h : j ≠ i) :
    bitAt (setBit x i v) j = bitAt x j := by simp [h]

/-- The later write to a bit wins (R25, R103). -/
@[simp] theorem setBit_setBit (x : Byte) (i : BitIndex) (v w : Bool) : setBit (setBit x i v) i w = setBit x i w :=
  byte_ext fun j => by by_cases h : j = i <;> simp [h]

/-- A bit written with the value it has leaves the byte as it was (R103). -/
theorem setBit_eq_self (x : Byte) (i : BitIndex) {v : Bool} (h : bitAt x i = v) : setBit x i v = x :=
  byte_ext fun j => by by_cases hj : j = i <;> simp [hj, h]

/-- The data bits of a nibble write, the last of two equal indices winning (R25, R120). -/
theorem bitAt_setNibble (pm : PinMap) (x : Byte) (n : Nibble) (j : BitIndex) :
    bitAt (setNibble pm x n) j =
      if j = pm.d3 then n.getLsbD 3 else if j = pm.d2 then n.getLsbD 2 else if j = pm.d1 then n.getLsbD 1
      else if j = pm.d0 then n.getLsbD 0 else bitAt x j := by
  simp [setNibble]

theorem bitAt_setNibble_of_notMem (pm : PinMap) (x : Byte) (n : Nibble) {j : BitIndex}
    (h : j ∉ [pm.d0, pm.d1, pm.d2, pm.d3]) : bitAt (setNibble pm x n) j = bitAt x j := by
  simp only [List.mem_cons, List.not_mem_nil, or_false, not_or] at h
  simp [bitAt_setNibble, h]

/-- The shift stage after one clock rise, bit by bit (R50). -/
theorem getLsbD_shiftIn (sr : Byte) (d : Bool) (k : Nat) (hk : k < 8) :
    (shiftIn sr d).getLsbD k = if k = 0 then d else sr.getLsbD (k - 1) := by
  cases k with
  | zero => simp [shiftIn]
  | succ m => simp [shiftIn, hk, -BitVec.getLsbD_eq_getElem]

/-- Eight shifts, bit 7 first, leave the value shifted, whatever the stage held (R52). -/
theorem shiftIn_eight (sr v : Byte) :
    shiftIn (shiftIn (shiftIn (shiftIn (shiftIn (shiftIn (shiftIn (shiftIn sr (v.getLsbD 7)) (v.getLsbD 6))
      (v.getLsbD 5)) (v.getLsbD 4)) (v.getLsbD 3)) (v.getLsbD 2)) (v.getLsbD 1)) (v.getLsbD 0) = v := by
  apply BitVec.eq_of_getLsbD_eq
  intro k hk
  interval_cases k <;> simp [getLsbD_shiftIn, -BitVec.getLsbD_eq_getElem]

/-- The nibble on the data outputs, bit by bit (R250). -/
theorem dataNibble_ext (pm : PinMap) (x y : Byte) (h0 : bitAt x pm.d0 = bitAt y pm.d0)
    (h1 : bitAt x pm.d1 = bitAt y pm.d1) (h2 : bitAt x pm.d2 = bitAt y pm.d2) (h3 : bitAt x pm.d3 = bitAt y pm.d3) :
    dataNibble pm x = dataNibble pm y := by
  simp [dataNibble, h0, h1, h2, h3]

/-- A write to a bit that no data line uses leaves the data outputs alone. -/
theorem dataNibble_setBit (pm : PinMap) (x : Byte) {i : BitIndex} (v : Bool)
    (h : i ∉ [pm.d0, pm.d1, pm.d2, pm.d3]) : dataNibble pm (setBit x i v) = dataNibble pm x := by
  simp only [List.mem_cons, List.not_mem_nil, or_false, not_or] at h
  apply dataNibble_ext <;> simp [Ne.symm, eq_comm, h]

/-! Under a distinct map (R285) the roles do not disturb each other. -/

/-- The indices of a distinct map, pair by pair, where claims about the display need them. -/
theorem distinct_roles {pm : PinMap} (h : pm.Distinct) :
    pm.rs ≠ pm.en ∧ pm.en ∉ [pm.d0, pm.d1, pm.d2, pm.d3] ∧ pm.rs ∉ [pm.d0, pm.d1, pm.d2, pm.d3] ∧
      pm.led ∉ [pm.rs, pm.en, pm.d0, pm.d1, pm.d2, pm.d3] ∧ [pm.d0, pm.d1, pm.d2, pm.d3].Nodup := by
  simp only [PinMap.Distinct, PinMap.indices, List.nodup_cons, List.mem_cons, List.not_mem_nil, not_or] at h ⊢
  tauto

theorem nibble_of_bits (n : Nibble) :
    BitVec.ofBool (n.getLsbD 3) ++ BitVec.ofBool (n.getLsbD 2) ++ BitVec.ofBool (n.getLsbD 1) ++
      BitVec.ofBool (n.getLsbD 0) = n := by
  revert n; decide

/-- The nibble written is the nibble on the data lines (R56). -/
theorem dataNibble_setNibble {pm : PinMap} (h : pm.Distinct) (x : Byte) (n : Nibble) :
    dataNibble pm (setNibble pm x n) = n := by
  have := (distinct_roles h).2.2.2.2
  simp only [List.nodup_cons, List.mem_cons, List.not_mem_nil, not_or] at this
  obtain ⟨⟨a, b, c, -⟩, ⟨d, e, -⟩, ⟨f, -⟩, -⟩ := this
  simpa [dataNibble, bitAt_setNibble, a, b, c, d, e, f, -BitVec.getLsbD_eq_getElem] using nibble_of_bits n

theorem dataNibble_setBit_en {pm : PinMap} (h : pm.Distinct) (x : Byte) (v : Bool) :
    dataNibble pm (setBit x pm.en v) = dataNibble pm x := dataNibble_setBit pm x v (distinct_roles h).2.1

theorem dataNibble_setBit_rs {pm : PinMap} (h : pm.Distinct) (x : Byte) (v : Bool) :
    dataNibble pm (setBit x pm.rs v) = dataNibble pm x := dataNibble_setBit pm x v (distinct_roles h).2.2.1

theorem rs_setNibble {pm : PinMap} (h : pm.Distinct) (x : Byte) (n : Nibble) :
    bitAt (setNibble pm x n) pm.rs = bitAt x pm.rs := bitAt_setNibble_of_notMem pm x n (distinct_roles h).2.2.1

theorem en_setNibble {pm : PinMap} (h : pm.Distinct) (x : Byte) (n : Nibble) :
    bitAt (setNibble pm x n) pm.en = bitAt x pm.en := bitAt_setNibble_of_notMem pm x n (distinct_roles h).2.1

end Sys2Proof.Machine
end

