-- ==== Sys2Proof/Laws/Wire.lean ====
section
/-! SUPPORT. Laws of the wires: what a list of events does to them, and what a whole push does (R50 to R53). -/

namespace Sys2Proof.Machine

@[simp] theorem Wire.replay_nil (pm : PinMap) (w : Wire) : w.replay pm [] = w := rfl

@[simp] theorem Wire.replay_cons (pm : PinMap) (w : Wire) (e : Event) (evs : List Event) :
    w.replay pm (e :: evs) = (w.react pm e).replay pm evs := rfl

@[simp] theorem Wire.replay_append (pm : PinMap) (w : Wire) (xs ys : List Event) :
    w.replay pm (xs ++ ys) = (w.replay pm xs).replay pm ys := by
  simp [Wire.replay, List.foldl_append]

/-- The observer touches its log and its counter only (R250). -/
@[simp] theorem Wire.observe_data (pm : PinMap) (v : Byte) (w : Wire) : (w.observe pm v).data = w.data := by
  unfold Wire.observe; split <;> [split; skip] <;> rfl
@[simp] theorem Wire.observe_clk (pm : PinMap) (v : Byte) (w : Wire) : (w.observe pm v).clk = w.clk := by
  unfold Wire.observe; split <;> [split; skip] <;> rfl
@[simp] theorem Wire.observe_lat (pm : PinMap) (v : Byte) (w : Wire) : (w.observe pm v).lat = w.lat := by
  unfold Wire.observe; split <;> [split; skip] <;> rfl
@[simp] theorem Wire.observe_sr (pm : PinMap) (v : Byte) (w : Wire) : (w.observe pm v).sr = w.sr := by
  unfold Wire.observe; split <;> [split; skip] <;> rfl
@[simp] theorem Wire.observe_q (pm : PinMap) (v : Byte) (w : Wire) : (w.observe pm v).q = w.q := by
  unfold Wire.observe; split <;> [split; skip] <;> rfl

/-- What the observer records depends on `Q`, its log and its counter only. -/
theorem Wire.observe_nl_congr (pm : PinMap) (v : Byte) {w u : Wire} (hq : w.q = u.q) (hn : w.nl = u.nl)
    (hd : w.draws = u.draws) : (w.observe pm v).nl = (u.observe pm v).nl := by
  unfold Wire.observe; rw [hq, hn, hd]; split <;> [split; skip] <;> simp [hn]

theorem Wire.observe_draws_congr (pm : PinMap) (v : Byte) {w u : Wire} (hq : w.q = u.q) (hd : w.draws = u.draws) :
    (w.observe pm v).draws = (u.observe pm v).draws := by
  unfold Wire.observe; rw [hq, hd]; split <;> [split; skip] <;> simp [hd]

/-- The six events of one bit shift that bit in (R50, R100). -/
theorem Wire.replay_bitEvents (pm : PinMap) (w : Wire) (b : Bool) (h : w.clk = false) :
    w.replay pm (bitEvents b) = { w with data := b, clk := false, sr := shiftIn w.sr b } := by
  simp [bitEvents, Wire.react, h]

/-- A whole push on idle wires (R52): `SR` and `Q` hold the value, the lines are idle again, and the observer has
seen one change of the outputs. -/
theorem Wire.replay_pushEvents (pm : PinMap) (w : Wire) (v : Byte) (h : w.Idle) :
    w.replay pm (pushEvents v) = w.latched pm v := by
  obtain ⟨hd, hc, hl⟩ := h
  have shifts : w.replay pm ([7, 6, 5, 4, 3, 2, 1, 0].flatMap fun k => bitEvents (v.getLsbD k)) =
      { w with data := v.getLsbD 0, clk := false, sr := v } := by
    simp only [List.flatMap_cons, List.flatMap_nil, List.append_nil, Wire.replay_append]
    repeat rw [Wire.replay_bitEvents _ _ _ (by first | exact hc | rfl)]
    simp only [shiftIn_eight]
  rw [pushEvents, Wire.replay_append, shifts]
  simp only [Wire.replay_cons, Wire.replay_nil, Wire.react, hl, Bool.not_false, Bool.and_self, if_true, Bool.false_and,
    Bool.false_eq_true, if_false, Wire.latched, Wire.observe_clk, Wire.observe_sr]
  congr 1
  · exact Wire.observe_nl_congr pm v rfl rfl rfl
  · exact Wire.observe_draws_congr pm v rfl rfl

@[simp] theorem Wire.latched_idle (pm : PinMap) (w : Wire) (v : Byte) : (w.latched pm v).Idle := ⟨rfl, rfl, rfl⟩
@[simp] theorem Wire.latched_sr (pm : PinMap) (w : Wire) (v : Byte) : (w.latched pm v).sr = v := rfl
@[simp] theorem Wire.latched_q (pm : PinMap) (w : Wire) (v : Byte) : (w.latched pm v).q = v := rfl

@[simp] theorem Wire.latchedAll_nil (pm : PinMap) (w : Wire) : w.latchedAll pm [] = w := rfl
@[simp] theorem Wire.latchedAll_cons (pm : PinMap) (w : Wire) (v : Byte) (vs : List Byte) :
    w.latchedAll pm (v :: vs) = (w.latched pm v).latchedAll pm vs := rfl

/-- A change of the outputs that is no enable fall records nothing (R250). -/
theorem Wire.latched_nl_of_no_fall (pm : PinMap) (w : Wire) (v : Byte) (h : enFalls pm w.q v = false) :
    (w.latched pm v).nl = w.nl := by
  simp [Wire.latched, Wire.observe, h]

/-- An enable fall with RS and the data unchanged records them (R250). -/
theorem Wire.latched_nl_of_fall (pm : PinMap) (w : Wire) (v : Byte) (h : enFalls pm w.q v = true)
    (st : rsDataStable pm w.q v = true) :
    (w.latched pm v).nl = w.nl ++ [⟨bitAt v pm.rs, dataNibble pm v⟩] := by
  simp [Wire.latched, Wire.observe, h, st]

/-- An enable fall with RS or the data changing records a free value (R250, log 3). -/
theorem Wire.latched_nl_of_draw (pm : PinMap) (w : Wire) (v : Byte) (h : enFalls pm w.q v = true)
    (st : rsDataStable pm w.q v = false) :
    (w.latched pm v).nl = w.nl ++ [⟨Config.drawRs w.draws, Config.drawNib w.draws⟩] := by
  simp [Wire.latched, Wire.observe, h, st]

end Sys2Proof.Machine
end

