-- ==== Sys2Proof/Laws/Ops.lean ====
section
/-! SUPPORT. What each shared operation does, said once: the events it emits, the shadow it leaves and, on idle
lines, what it leaves on the wires. -/

namespace Sys2Proof.Machine

variable (s : State)

/-- A push on idle lines latches the shadow (R52). -/
theorem State.push_wire_of_idle (h : s.wire.Idle) : s.push.wire = s.wire.latched s.pm s.shadow := by
  simp [Wire.replay_pushEvents _ _ _ h]

@[simp] theorem State.pulseEnable_shadow : s.pulseEnable.shadow = setBit s.shadow s.pm.en false := by
  simp [State.pulseEnable]

@[simp] theorem State.pulseEnable_trace : s.pulseEnable.trace = s.trace ++ pulseEvents s.pm s.shadow := by
  simp [State.pulseEnable, pulseEvents]

/-- An enable pulse on idle lines latches its three values (R121, R122). -/
theorem State.pulseEnable_wire_of_idle (h : s.wire.Idle) :
    s.pulseEnable.wire = s.wire.latchedAll s.pm (pulseValues s.pm s.shadow) := by
  simp [State.pulseEnable, pulseValues, Wire.replay_pushEvents, h]

@[simp] theorem State.writeNibble_shadow (n : Nibble) :
    (s.writeNibble n).shadow = nibbleShadow s.pm s.shadow n := by
  simp [State.writeNibble, nibbleShadow]

@[simp] theorem State.writeNibble_trace (n : Nibble) :
    (s.writeNibble n).trace = s.trace ++ nibbleEvents s.pm s.shadow n := by
  simp [State.writeNibble, nibbleEvents]

/-- A nibble write on idle lines latches its four values (R120). -/
theorem State.writeNibble_wire_of_idle (n : Nibble) (h : s.wire.Idle) :
    (s.writeNibble n).wire = s.wire.latchedAll s.pm (nibbleValues s.pm s.shadow n) := by
  have := State.pulseEnable_wire_of_idle ((s.writeData n).push) (by simp [Wire.replay_pushEvents, h])
  simpa [State.writeNibble, nibbleValues, Wire.replay_pushEvents, h] using this

/-- Pushes end on idle lines (R28). -/
theorem Wire.latchedAll_idle (pm : PinMap) (w : Wire) (vs : List Byte) (h : w.Idle) : (w.latchedAll pm vs).Idle := by
  induction vs generalizing w with
  | nil => exact h
  | cons v vs ih => exact ih _ (Wire.latched_idle pm w v)

theorem State.pulseEnable_idle (h : s.wire.Idle) : s.pulseEnable.wire.Idle := by
  rw [State.pulseEnable_wire_of_idle s h]; exact Wire.latchedAll_idle _ _ _ h

theorem State.writeNibble_idle (n : Nibble) (h : s.wire.Idle) : (s.writeNibble n).wire.Idle := by
  rw [State.writeNibble_wire_of_idle s n h]; exact Wire.latchedAll_idle _ _ _ h

/-- After a nibble write both stages of the register hold the shadow (R52). -/
theorem State.writeNibble_register (n : Nibble) (h : s.wire.Idle) :
    (s.writeNibble n).wire.sr = nibbleShadow s.pm s.shadow n ∧
      (s.writeNibble n).wire.q = nibbleShadow s.pm s.shadow n := by
  rw [State.writeNibble_wire_of_idle s n h]
  simp [nibbleValues, pulseValues, nibbleShadow]

/-! The sizes of the lists of events (R100, R101, R121, R290). -/

@[simp] theorem pushEvents_length (v : Byte) : (pushEvents v).length = 53 := rfl
@[simp] theorem waitSum_append (xs ys : List Event) : waitSum (xs ++ ys) = waitSum xs + waitSum ys := by
  simp [waitSum]
@[simp] theorem waitSum_nil : waitSum [] = 0 := rfl
@[simp] theorem waitSum_cons (e : Event) (evs : List Event) : waitSum (e :: evs) = e.ns + waitSum evs := by
  simp [waitSum]
@[simp] theorem waitSum_pushEvents (v : Byte) : waitSum (pushEvents v) = 26000 := by
  simp [pushEvents, bitEvents, Event.ns, Config.tHold]
@[simp] theorem latchRises_append (xs ys : List Event) : latchRises (xs ++ ys) = latchRises xs + latchRises ys := by
  simp [latchRises]
@[simp] theorem latchRises_pushEvents (v : Byte) : latchRises (pushEvents v) = 1 := by
  simp [latchRises, pushEvents, bitEvents]

@[simp] theorem pulseEvents_length (pm : PinMap) (v : Byte) : (pulseEvents pm v).length = 162 := by simp [pulseEvents]
@[simp] theorem waitSum_pulseEvents (pm : PinMap) (v : Byte) : waitSum (pulseEvents pm v) = 130000 := by
  simp [pulseEvents, Event.ns, Config.tHold, Config.tSettle]
@[simp] theorem nibbleEvents_length (pm : PinMap) (v : Byte) (n : Nibble) : (nibbleEvents pm v n).length = 215 := by
  simp [nibbleEvents]
@[simp] theorem waitSum_nibbleEvents (pm : PinMap) (v : Byte) (n : Nibble) : waitSum (nibbleEvents pm v n) = 156000 := by
  simp [nibbleEvents]

end Sys2Proof.Machine
end

