-- ==== Sys2Proof/Laws/PerInstr.lean ====
section
/-! SUPPORT. Facts about every operation as syntax, one lemma per constructor. Family `TableRow`: the encoding of an
operation is selected by the opcode table's row of its mnemonic (R71, R73). -/

namespace Sys2Proof.Laws.TableRow

/-- The row of the operation's mnemonic selects its encoding. -/
def Statement (i : Instr) : Prop := ∃ r ∈ opcodeTable, r.mnemonic = i.mnemonic ∧ encode i &&& r.mask = r.bits

theorem push : Statement .push := ⟨⟨"PUSH", 0xFFFF, 0x1000⟩, by decide, rfl, by decide⟩

theorem setbit (idx : BitIndex) (v : Bool) : Statement (.setbit idx v) :=
  ⟨⟨"SETBIT", 0xFFF0, 0x2000⟩, by decide, rfl, by revert idx v; decide⟩

theorem wnib (n : Byte) : Statement (.wnib n) := ⟨⟨"WNIB", 0xFF00, 0x3000⟩, by decide, rfl, by revert n; decide⟩

theorem pulse : Statement .pulse := ⟨⟨"PULSE", 0xFFFF, 0x4000⟩, by decide, rfl, by decide⟩

theorem send (b : Byte) (d : Bool) : Statement (.send b d) := by
  refine ⟨⟨"SEND", 0xFE00, 0x5000⟩, by decide, rfl, ?_⟩
  apply BitVec.eq_of_getLsbD_eq
  intro k hk
  interval_cases k <;> simp [encode, -BitVec.getLsbD_eq_getElem]

theorem ledon : Statement .ledon := ⟨⟨"LEDON", 0xFFFF, 0x6000⟩, by decide, rfl, by decide⟩

theorem ledoff : Statement .ledoff := ⟨⟨"LEDOFF", 0xFFFF, 0x7000⟩, by decide, rfl, by decide⟩

theorem fidle : Statement .fidle := ⟨⟨"FIDLE", 0xFFFF, 0x8000⟩, by decide, rfl, by decide⟩

theorem delay (u : DelayUnit) (c : BitVec 11) : Statement (.delay u c) := by
  refine ⟨⟨"DELAY", 0xF000, 0x9000⟩, by decide, rfl, ?_⟩
  apply BitVec.eq_of_getLsbD_eq
  intro k hk
  interval_cases k <;> simp [encode, -BitVec.getLsbD_eq_getElem]

end Sys2Proof.Laws.TableRow
end

