-- ==== Sys2Proof/Laws/Step.lean ====
section
/-! SUPPORT. What one step can do, said once, and what every operation does to the fields it shares. -/

namespace Sys2Proof.Machine

/-- All that a step can do (R20, R43, R242). -/
theorem step_cases (s : State) :
    (∃ w, s.faultMark = some w ∧ step s = .fault (.illegalCommand w)) ∨
    (s.faultMark = none ∧ s.fetch = none ∧ step s = .refused .endOfStream) ∨
    (∃ w why, s.faultMark = none ∧ s.fetch = some w ∧ decode w = .illegal why ∧ step s = .next (s.raiseIllegal w)) ∨
    (∃ w i, s.faultMark = none ∧ s.fetch = some w ∧ decode w = .op i ∧ step s = exec i s) := by
  rcases hf : s.faultMark with _ | w
  · rcases hp : s.fetch with _ | w
    · exact .inr (.inl ⟨rfl, rfl, by simp [step, hf, hp]⟩)
    · rcases hd : decode w with i | why
      · exact .inr (.inr (.inr ⟨w, i, rfl, rfl, hd, by simp [step, hf, hp, hd]⟩))
      · exact .inr (.inr (.inl ⟨w, why, rfl, rfl, hd, by simp [step, hf, hp, hd]⟩))
  · exact .inl ⟨w, rfl, by simp [step, hf]⟩

/-- The state an operation leaves, without the outcome around it. -/
def execState (i : Instr) (s : State) : State :=
  match exec i s with
  | .next t => t
  | _ => s

/-- Every operation answers its state (R240). -/
theorem exec_eq (i : Instr) (s : State) : exec i s = .next (execState i s) := by cases i <;> rfl

/-! The state each operation leaves, in the shared operations: what a proof rewrites by, so that it unfolds nothing. -/

variable (s : State)

theorem execState_push : execState .push s = s.push.retire respNone := rfl
theorem execState_setbit (idx : BitIndex) (v : Bool) :
    execState (.setbit idx v) s = (s.writeBit idx v).retire respNone := rfl
theorem execState_wnib (n : Byte) : execState (.wnib n) s = (s.writeNibble (lowNibble n)).retire respNone := rfl
theorem execState_pulse : execState .pulse s = s.pulseEnable.retire respNone := rfl
theorem execState_send (b : Byte) (d : Bool) :
    execState (.send b d) s =
      ((((s.writeBit s.pm.rs d).push).writeNibble (highNibble b)).writeNibble (lowNibble b)).retire (respSend d) := rfl
theorem execState_ledon : execState .ledon s = ((s.writeBit s.pm.led false).push).retire respNone := rfl
theorem execState_ledoff : execState .ledoff s = ((s.writeBit s.pm.led true).push).retire respNone := rfl
theorem execState_fidle :
    execState .fidle s =
      ((((((s.writeBit s.pm.rs true).writeBit s.pm.en true).push).writeBit s.pm.rs false).writeBit s.pm.en
        false).push).retire respNone := rfl
theorem execState_delay (u : DelayUnit) (c : BitVec 11) :
    execState (.delay u c) s = (s.pause (delayNs u c)).retire respNone := rfl

/-- `t` is `s` after some events: the trace has grown by them, the wires have reacted to exactly them, and the map and
what no operation writes are as they were (R20, R26, R40, R65). -/
structure State.Follows (s t : State) : Prop where
  events : ∃ evs, t.trace = s.trace ++ evs ∧ t.wire = s.wire.replay s.pm evs
  pm : t.pm = s.pm
  prog : t.prog = s.prog
  faultMark : t.faultMark = s.faultMark
  ds : t.ds = s.ds
  href : t.href = s.href

namespace State.Follows

variable {s t u : State}

theorem refl (s : State) : s.Follows s := ⟨⟨[], by simp⟩, rfl, rfl, rfl, rfl, rfl⟩

theorem trans (h : s.Follows t) (k : t.Follows u) : s.Follows u := by
  obtain ⟨⟨xs, ht, hw⟩, h1, h2, h3, h4, h5⟩ := h
  obtain ⟨⟨ys, kt, kw⟩, k1, k2, k3, k4, k5⟩ := k
  exact ⟨⟨xs ++ ys, by simp [kt, ht], by simp [kw, hw, h1]⟩, k1.trans h1, k2.trans h2, k3.trans h3, k4.trans h4,
    k5.trans h5⟩

theorem emit (s : State) (evs : List Event) : s.Follows (s.emit evs) := ⟨⟨evs, rfl, rfl⟩, rfl, rfl, rfl, rfl, rfl⟩
theorem push (s : State) : s.Follows s.push := ⟨⟨pushEvents s.shadow, rfl, rfl⟩, rfl, rfl, rfl, rfl, rfl⟩
theorem pause (s : State) (ns : Nat) : s.Follows (s.pause ns) := emit s _
theorem writeBit (s : State) (i : BitIndex) (v : Bool) : s.Follows (s.writeBit i v) :=
  ⟨⟨[], by simp⟩, rfl, rfl, rfl, rfl, rfl⟩
theorem writeData (s : State) (n : Nibble) : s.Follows (s.writeData n) := ⟨⟨[], by simp⟩, rfl, rfl, rfl, rfl, rfl⟩
theorem retire (s : State) (r : Byte) : s.Follows (s.retire r) := ⟨⟨[], by simp⟩, rfl, rfl, rfl, rfl, rfl⟩

theorem writePush (s : State) (i : BitIndex) (v : Bool) : s.Follows (s.writeBit i v).push :=
  (writeBit s i v).trans (push _)

theorem pulseEnable (s : State) : s.Follows s.pulseEnable :=
  (((writePush s _ _).trans (pause _ _)).trans ((writePush _ _ _).trans (pause _ _))).trans
    ((writePush _ _ _).trans (pause _ _))

theorem writeNibble (s : State) (n : Nibble) : s.Follows (s.writeNibble n) :=
  ((writeData s n).trans (push _)).trans (pulseEnable _)

end State.Follows

/-- Every operation only appends events and writes the shadow, `pushed`, `RESP` and `pc` (R20, R26, R40, R65). -/
theorem exec_follows (i : Instr) (s : State) : s.Follows (execState i s) := by
  cases i with
  | push => exact (State.Follows.push s).trans (.retire _ _)
  | setbit idx v => exact (State.Follows.writeBit s idx v).trans (.retire _ _)
  | wnib n => exact (State.Follows.writeNibble s _).trans (.retire _ _)
  | pulse => exact (State.Follows.pulseEnable s).trans (.retire _ _)
  | send b d =>
    exact (((State.Follows.writePush s _ _).trans (.writeNibble _ _)).trans (.writeNibble _ _)).trans (.retire _ _)
  | ledon => exact (State.Follows.writePush s _ _).trans (.retire _ _)
  | ledoff => exact (State.Follows.writePush s _ _).trans (.retire _ _)
  | fidle =>
    exact (((State.Follows.writeBit s _ _).trans (.writePush _ _ _)).trans
      ((State.Follows.writeBit _ _ _).trans (.writePush _ _ _))).trans (.retire _ _)
  | delay u c => exact (State.Follows.pause s _).trans (.retire _ _)

end Sys2Proof.Machine
end

