-- ==== Sys2Proof/Laws/Timing.lean ====
section
/-! SUPPORT. The latch rises of a trace (R282, R283): of two traces one after the other, of a wait, and of a whole
push, which has one, 24 µs after its start (R100, R101). -/

namespace Sys2Proof.Machine

@[simp] theorem latchRisesFrom_nil (pm : PinMap) (w : Wire) (t : Nat) : latchRisesFrom pm w t [] = [] := rfl

@[simp] theorem latchRisesFrom_wait (pm : PinMap) (w : Wire) (t ns : Nat) (evs : List Event) :
    latchRisesFrom pm w t (.wait ns :: evs) = latchRisesFrom pm w (t + ns) evs := rfl

@[simp] theorem latchRisesFrom_setData (pm : PinMap) (w : Wire) (t : Nat) (v : Bool) (evs : List Event) :
    latchRisesFrom pm w t (.setData v :: evs) = latchRisesFrom pm (w.react pm (.setData v)) t evs := rfl

@[simp] theorem latchRisesFrom_setClk (pm : PinMap) (w : Wire) (t : Nat) (v : Bool) (evs : List Event) :
    latchRisesFrom pm w t (.setClk v :: evs) = latchRisesFrom pm (w.react pm (.setClk v)) t evs := rfl

theorem latchRisesFrom_append (pm : PinMap) (w : Wire) (t : Nat) (xs ys : List Event) :
    latchRisesFrom pm w t (xs ++ ys) =
      latchRisesFrom pm w t xs ++ latchRisesFrom pm (w.replay pm xs) (t + waitSum xs) ys := by
  induction xs generalizing w t with
  | nil => simp
  | cons e xs ih =>
    have := ih (w.react pm e) (t + e.ns)
    simp only [List.cons_append, latchRisesFrom, this, Wire.replay_cons, waitSum_cons, Nat.add_assoc]
    split <;> [split; skip] <;> simp

/-- The six events of one bit hold no latch rise. -/
theorem latchRisesFrom_bitEvents (pm : PinMap) (w : Wire) (t : Nat) (b : Bool) :
    latchRisesFrom pm w t (bitEvents b) = [] := by simp [bitEvents]

/-- A push on idle lines has one latch rise, 24 µs of waits after its start, which shows the pushed value. -/
theorem latchRisesFrom_pushEvents (pm : PinMap) (w : Wire) (t : Nat) (v : Byte) (h : w.Idle) :
    latchRisesFrom pm w t (pushEvents v) = [⟨t + 24000, w.q, v⟩] := by
  obtain ⟨-, hc, hl⟩ := h
  have bits : ∀ bs : List Bool, waitSum (bs.flatMap bitEvents) = 3000 * bs.length := by
    intro bs
    induction bs with
    | nil => rfl
    | cons b bs ih => simp [ih, bitEvents, Event.ns, Config.tHold]; omega
  have none : ∀ (bs : List Bool) (u : Wire) (t : Nat), latchRisesFrom pm u t (bs.flatMap bitEvents) = [] := by
    intro bs
    induction bs with
    | nil => intros; rfl
    | cons b bs ih => intro u t; simp [latchRisesFrom_append, latchRisesFrom_bitEvents, ih]
  have shifts : w.replay pm (([7, 6, 5, 4, 3, 2, 1, 0].map v.getLsbD).flatMap bitEvents) =
      { w with data := v.getLsbD 0, clk := false, sr := v } := by
    simp only [List.map_cons, List.map_nil, List.flatMap_cons, List.flatMap_nil, List.append_nil, Wire.replay_append]
    repeat rw [Wire.replay_bitEvents _ _ _ (by first | exact hc | rfl)]
    simp only [shiftIn_eight]
  have split : pushEvents v = ([7, 6, 5, 4, 3, 2, 1, 0].map v.getLsbD).flatMap bitEvents ++
      [.setLat true, .wait Config.tHold, .setLat false, .wait Config.tHold, .setData false] := rfl
  rw [split, latchRisesFrom_append, none, shifts, bits]
  simp [latchRisesFrom, hl]

@[simp] theorem settledSince_none (now : Nat) : settledSince none now = true := rfl

@[simp] theorem settledSince_some (t now : Nat) : settledSince (some t) now = true ↔ t + 50000 ≤ now :=
  decide_eq_true_iff

/-- An enable pulse on idle lines leaves its three values latched. -/
theorem Wire.replay_pulseEvents (pm : PinMap) (w : Wire) (v : Byte) (h : w.Idle) :
    w.replay pm (pulseEvents pm v) = w.latchedAll pm (pulseValues pm v) := by
  simp [pulseEvents, pulseValues, Wire.replay_pushEvents, h, Wire.react]

/-- A nibble write on idle lines leaves its four values latched. -/
theorem Wire.replay_nibbleEvents (pm : PinMap) (w : Wire) (v : Byte) (n : Nibble) (h : w.Idle) :
    w.replay pm (nibbleEvents pm v n) = w.latchedAll pm (nibbleValues pm v n) := by
  simp [nibbleEvents, nibbleValues, Wire.replay_pushEvents, Wire.replay_pulseEvents, h]

/-- The wires of a nibble write, as the events it emits make them. -/
theorem State.writeNibble_wire (s : State) (n : Nibble) (h : s.wire.Idle) :
    (s.writeNibble n).wire = s.wire.replay s.pm (nibbleEvents s.pm s.shadow n) := by
  rw [State.writeNibble_wire_of_idle s n h, Wire.replay_nibbleEvents _ _ _ _ h]

/-- The three latch rises of an enable pulse on idle lines (R122): 24, 51 and 78 µs after its start. -/
theorem latchRisesFrom_pulseEvents (pm : PinMap) (w : Wire) (t : Nat) (v : Byte) (h : w.Idle) :
    latchRisesFrom pm w t (pulseEvents pm v) =
      [⟨t + 24000, w.q, setBit v pm.en false⟩, ⟨t + 51000, setBit v pm.en false, setBit v pm.en true⟩,
        ⟨t + 78000, setBit v pm.en true, setBit v pm.en false⟩] := by
  simp [pulseEvents, latchRisesFrom_append, latchRisesFrom_pushEvents, Wire.replay_pushEvents, h, Config.tHold,
    Nat.add_assoc]

/-- The four latch rises of a nibble write on idle lines: the data, then the enable pulse. -/
theorem latchRisesFrom_nibbleEvents (pm : PinMap) (w : Wire) (t : Nat) (v : Byte) (n : Nibble) (h : w.Idle) :
    latchRisesFrom pm w t (nibbleEvents pm v n) =
      ⟨t + 24000, w.q, setNibble pm v n⟩ ::
        latchRisesFrom pm (w.latched pm (setNibble pm v n)) (t + 26000) (pulseEvents pm (setNibble pm v n)) := by
  simp [nibbleEvents, latchRisesFrom_append, latchRisesFrom_pushEvents, Wire.replay_pushEvents, h]

end Sys2Proof.Machine
end

