-- ==== Sys2Proof/Tests/Slice0.lean ====
section
/-! SUPPORT. Tests of the model against the spec's own vectors (95_test_vectors.md, and the bit patterns of R71), and the
witnesses that the premises of the statements can be met. Nothing here is a statement for the provers. -/

open Sys2Proof Sys2Proof.Machine Sys2Proof.Claims

namespace Sys2Proof.Tests

/-- A machine with the default map, the given shadow and register, and no program. -/
def machine (shadow q : Byte) : State := State.construct PinMap.default shadow q q []

/-- The same with a program. -/
def loaded (shadow : Byte) (prog : List Word) : State := State.construct PinMap.default shadow 0 0 prog

/-- An outcome is a next state of which `p` holds. -/
def nextHas (o : Host.Outcome State Fault Refusal) (p : State → Bool) : Bool :=
  match o with
  | .next t => p t
  | _ => false

/-- The final bytes of a state: `S`, `SR` and `Q`. -/
def bytesOf (s : State) : List Byte := [s.shadow, s.wire.sr, s.wire.q]

/-! ## Decoding: words written out from the bit patterns of R71 -/

theorem test_decode_push : decode 0b0001000000000000 = .op .push := by decide
theorem test_decode_setbit : decode 0b0010000000001010 = .op (.setbit 2 true) := by decide
theorem test_decode_setbit_clear : decode 0b0010000000000111 = .op (.setbit 7 false) := by decide
theorem test_decode_wnib : decode 0b0011000011110011 = .op (.wnib 0xF3) := by decide
theorem test_decode_pulse : decode 0b0100000000000000 = .op .pulse := by decide
theorem test_decode_send_data : decode 0b0101000101000001 = .op (.send 0x41 true) := by decide
theorem test_decode_send_command : decode 0b0101000010000000 = .op (.send 0x80 false) := by decide
theorem test_decode_ledon : decode 0b0110000000000000 = .op .ledon := by decide
theorem test_decode_ledoff : decode 0b0111000000000000 = .op .ledoff := by decide
theorem test_decode_fidle : decode 0b1000000000000000 = .op .fidle := by decide
theorem test_decode_delay_ms : decode 0b1001100000000101 = .op (.delay .ms 5) := by decide
theorem test_decode_delay_us : decode 0b1001011111111111 = .op (.delay .us 2047) := by decide
theorem test_decode_table_word : decodeTableWord 16 0x9864 = some (.delay .ms 100) := by decide

/-- L2.5: every listed word is illegal. -/
theorem test_illegal_words :
    ([0x0000, 0x0FFF, 0xA000, 0xFFFF, 0x1001, 0x2010, 0x2800, 0x3100, 0x4001, 0x5200, 0x6001, 0x7800, 0x8001] :
      List Nat).all (fun w => decodeTableWord 16 w == none) = true := by decide

/-- Formulas of R102 to R163: the words of L2 and L3. -/
theorem test_encode :
    [encode (.setbit 2 true), encode (.wnib 0x03), encode (.send 0x41 true), encode (.delay .ms 5)] =
      [0x200A, 0x3003, 0x5141, 0x9805] := by decide

/-! ## WellFormed: each check refuses an ill-formed term -/

theorem test_wf_setbit_index : (Asm.setbit 8 0).WellFormed = false := by decide
theorem test_wf_setbit_value : (Asm.setbit 0 2).WellFormed = false := by decide
theorem test_wf_wnib : (Asm.wnib 256).WellFormed = false := by decide
theorem test_wf_send_byte : (Asm.send 256 0).WellFormed = false := by decide
theorem test_wf_send_mode : (Asm.send 0 2).WellFormed = false := by decide
theorem test_wf_delay : (Asm.delay .us 2048).WellFormed = false := by decide
theorem test_wf_cmd : (Asm.cmd 256).WellFormed = false := by decide
theorem test_wf_write : (Asm.write 256).WellFormed = false := by decide
theorem test_wf_fits : (Asm.setbit 7 1).WellFormed = true ∧ (Asm.delay .ms 2047).WellFormed = true := by decide
theorem test_wf_illegal_word : legalWord 0x0000 = false ∧ legalWord 0x2010 = false ∧ legalWord 0x9FFF = true := by decide
theorem test_wf_aliased_map : ¬ ({ PinMap.default with d1 := 4 } : PinMap).Distinct := by
  unfold PinMap.Distinct; decide
theorem test_wf_default_map : PinMap.default.Distinct ∧ PinMap.default.Unmapped 0 := by
  unfold PinMap.Distinct; decide

/-! ## Operations: one step each, expected values from 95_test_vectors.md -/

/-- L1.1: the data levels, one latch pulse, 26 µs of waits. -/
theorem test_push_A5 : nextHas (exec .push (machine 0xA5 0)) (fun t =>
    bytesOf t == [0xA5, 0xA5, 0xA5] && t.trace.length == 53 && waitSum t.trace == 26000 && t.wire.nl == [] &&
    dataWrites t.trace == [true, false, true, false, false, true, false, true, false] && t.pushed) = true := by decide

/-- L2.1 #3: a power-up enable level falls at the first push, and the record is a draw. -/
theorem test_push_first_fall : nextHas (exec .push (machine 0x00 0xFF)) (fun t =>
    t.wire.q == 0 && t.wire.nl.length == 1 && t.wire.draws == 1) = true := by decide

/-- L2.1 #4. -/
theorem test_setbit_sets : nextHas (exec (.setbit 1 true) (machine 0x00 0)) (fun t =>
    bytesOf t == [0x02, 0x00, 0x00] && t.trace == [] && t.pc == 1) = true := by decide

/-- L2.1 #5. -/
theorem test_setbit_clears : nextHas (exec (.setbit 7 false) (machine 0xFF 0)) (fun t => t.shadow == 0x7F) = true := by
  decide

/-- L2.2 #2: the high nibble of the operand is ignored. -/
theorem test_wnib_F3 : nextHas (exec (.wnib 0xF3) (machine 0x00 0)) (fun t =>
    bytesOf t == [0x30, 0x30, 0x30] && t.wire.nl == [⟨false, 3⟩] && t.trace.length == 215) = true := by decide +kernel

/-- L2.2 #3: the enable bit high on entry gives an extra record. -/
theorem test_wnib_enable_high : nextHas (exec (.wnib 0x0A) (machine 0xFF 0)) (fun t =>
    bytesOf t == [0xA7, 0xA7, 0xA7] && t.wire.nl == [⟨true, 10⟩, ⟨true, 10⟩]) = true := by decide +kernel

/-- L2.2 #6. -/
theorem test_pulse_30 : nextHas (exec .pulse (machine 0x30 0)) (fun t =>
    bytesOf t == [0x30, 0x30, 0x30] && t.wire.nl == [⟨false, 3⟩] && waitSum t.trace == 130000) = true := by decide +kernel

/-- L2.2 #5. -/
theorem test_pulse_FF : nextHas (exec .pulse (machine 0xFF 0)) (fun t =>
    t.wire.q == 0xF7 && t.wire.nl == [⟨true, 15⟩]) = true := by decide +kernel

/-- L2.2 #8: data and LED kept, the record a draw. -/
theorem test_fidle_F5 : nextHas (exec .fidle (machine 0xF5 0)) (fun t =>
    bytesOf t == [0xF5, 0xF5, 0xF5] && t.wire.nl.length == 1 && t.trace.length == 106) = true := by decide +kernel

/-- L2.3 #1. -/
theorem test_send_data : nextHas (exec (.send 0x41 true) (machine 0x00 0)) (fun t =>
    bytesOf t == [0x12, 0x12, 0x12] && t.resp == 1 && t.wire.nl == [⟨true, 4⟩, ⟨true, 1⟩]) = true := by decide +kernel

/-- L2.3 #3. -/
theorem test_send_command : nextHas (exec (.send 0xFF false) (machine 0x00 0)) (fun t =>
    t.shadow == 0xF0 && t.resp == 0 && t.trace.length == 483 && waitSum t.trace == 338000) = true := by decide +kernel

/-- L2.4 #1. -/
theorem test_ledon_FF : nextHas (exec .ledon (machine 0xFF 0)) (fun t => bytesOf t == [0xFB, 0xFB, 0xFB]) = true := by
  decide

/-- L2.4 #2. -/
theorem test_ledoff_00 : nextHas (exec .ledoff (machine 0x00 0)) (fun t => bytesOf t == [0x04, 0x04, 0x04]) = true := by
  decide

/-- L2.4 #5. -/
theorem test_delay_us : nextHas (exec (.delay .us 2047) (machine 0 0)) (fun t => t.trace == [.wait 2047000]) = true := by
  decide

/-- L2.4 #3: a count of 0 is recorded. -/
theorem test_delay_zero : nextHas (exec (.delay .us 0) (machine 0 0)) (fun t => t.trace == [.wait 0]) = true := by decide

/-- L2.2 #9: of two equal data indices the later write wins. -/
theorem test_wnib_aliased : nextHas (exec (.wnib 0x01)
    (State.construct { PinMap.default with d1 := 4 } 0x00 0 0 [])) (fun t =>
      t.shadow == 0x00 && t.wire.nl == [⟨false, 0⟩]) = true := by decide +kernel

/-- L2.5: an illegal word faults at once and changes nothing else. -/
theorem test_step_illegal : nextHas (step (loaded 0x5A [0x0000])) (fun t =>
    t == { loaded 0x5A [0x0000] with faultMark := some 0x0000 }) = true := by decide

/-- A placed word runs as the first instruction after reset. -/
theorem test_reset_runs : nextHas (step (State.reset.withFetchWord 16 0x9805)) (fun t =>
    t.trace == [.wait 5000000] && t.pc == 1) = true := by decide

/-! ## The host layer, with the reference bytes of section G4 of 93_implementation_defined.md (PRESUMED there: general
knowledge, a hypothesis of these tests only) -/

/-- The reference command bytes. -/
def referenceBytes : Config.CommandBytes where
  funcset two font := 0x20 ||| (if two then 0x08 else 0) ||| (if font then 0x04 else 0)
  dispctl display cursor blink :=
    0x08 ||| (if display then 0x04 else 0) ||| (if cursor then 0x02 else 0) ||| (if blink then 0x01 else 0)
  entry ltr autoscroll := 0x04 ||| (if ltr then 0x02 else 0) ||| (if autoscroll then 0x01 else 0)
  clear := 0x01
  home := 0x02
  shift right := 0x18 ||| (if right then 0x04 else 0)
  ddram addr := 0x80 ||| (addr &&& 0x7F)
  cgram addr := 0x40 ||| addr.setWidth 8

/-- A machine whose host has run `begin(16, lines, 0)`, its stream then emptied. -/
def begun (lines : Byte) : State :=
  { hostCall referenceBytes (.begin 16 lines 0) (machine 0 0) with prog := [] }

/-- L3.3: the fourteen words. -/
theorem test_begin_words : (hostCall referenceBytes (.begin 16 1 0) (machine 0 0)).prog =
    [0x9864, 0x8000, 0x3003, 0x9805, 0x3003, 0x9805, 0x3003, 0x9801, 0x3002, 0x5020, 0x500C, 0x5001, 0x9802, 0x5006] := by
  decide

/-- L2.6 #4: the font is only selectable with one line. -/
theorem test_begin_font : (hostCall referenceBytes (.begin 16 2 1) (machine 0 0)).prog[9]? = some 0x5028 := by decide

/-- L2.6 #5. -/
theorem test_begin_refused : (hostCall referenceBytes (.begin 16 5 0) (machine 0 0)).href = some (.linesOutOfRange 5) ∧
    (hostCall referenceBytes (.begin 16 5 0) (machine 0 0)).prog = [] := by decide

/-- L1.3: a clamped row. -/
theorem test_setCursor_clamp : (hostCall referenceBytes (.setCursor 3 5) (begun 2)).prog = [0x50C3] := by decide

/-- L1.3: the sum wraps. -/
theorem test_setCursor_wrap : (hostCall referenceBytes (.setCursor 250 3) (begun 4)).prog = [0x50CE] := by decide

/-- L1.4 and L3.4. -/
theorem test_createChar : (hostCall referenceBytes
    (.createChar 9 #v[0x00, 0x0A, 0x1F, 0x1F, 0x0E, 0x04, 0x00, 0x00]) (begun 1)).prog =
    [0x5048, 0x5100, 0x510A, 0x511F, 0x511F, 0x510E, 0x5104, 0x5100, 0x5100] := by decide

/-- L2.6 #8. -/
theorem test_cursor_blink : (hostCalls referenceBytes [.cursor, .blink] (begun 1)).prog = [0x500E, 0x500F] := by decide

/-- L3.3: the words of `begin` meet the host conditions, and without the delay after the clear they do not (R284). -/
theorem test_hostOK : hostOK referenceBytes (hostCall referenceBytes (.begin 16 1 0) (machine 0 0)).prog = true ∧
    hostOK referenceBytes [0x5001] = false := by decide

/-- L2.2 #3: the extra strobe breaks T1 and T2, with the times of the vector (26 and 27 µs). -/
theorem test_timing_broken :
    let ls : List LatchRise := [⟨24000, 0x00, 0xAF⟩, ⟨50000, 0xAF, 0xA7⟩, ⟨77000, 0xA7, 0xAF⟩, ⟨104000, 0xAF, 0xA7⟩]
    enableHeld PinMap.default none ls = false ∧ settleKept PinMap.default none ls = false := by decide

/-! ## The assembler: the examples of R76 -/

theorem test_asm_setbit : readLine ['S', 'E', 'T', 'B', 'I', 'T', ' ', '2', ',', ' ', '1'] = .statement (.setbit 2 1) := by
  decide
theorem test_asm_delay : readLine ['D', 'E', 'L', 'A', 'Y', ' ', '5', 'm', 's', ' ', ';', ' ', 'x'] =
    .statement (.delay .ms 5) := by decide
theorem test_asm_send : readLine ['S', 'E', 'N', 'D', ' ', '0', 'x', '4', '1', ',', ' ', '1'] =
    .statement (.send 0x41 1) := by decide

/-! ## Witnesses: for every statement with premises, a state and operands that meet them together -/

/-- `S = 0x04`, `Q = 0x04`: idle lines, the enable bit low on the outputs and in the shadow. -/
abbrev quiet : State := machine 0x04 0x04

/-- The enable bit high in the shadow and low on the outputs. -/
abbrev enHigh : State := machine 0x08 0x00

theorem default_distinct : PinMap.default.Distinct := by unfold PinMap.Distinct; decide

theorem quiet_idle : quiet.wire.Idle := ⟨rfl, rfl, rfl⟩

theorem test_witness_EncodeOfDecodeGivesTheWord : decode 0x5141 = .op (.send 0x41 true) := by decide

theorem test_witness_DecoderFollowsTheOpcodeTable :
    decode 0x9FFF = .op (.delay .ms 2047) ∧ (⟨"DELAY", 0xF000, 0x9000⟩ : OpcodeRow) ∈ opcodeTable := by decide

theorem test_witness_PseudoInstructionsAreSends :
    (255 < 256) ∧ assemble (.delay .us 2047) ≠ none ∧ assemble (.delay .us 2048) = none := by decide

theorem test_witness_StepRunsTheDecodedOperation :
    (loaded 0 [0x1000]).faultMark = none ∧ (loaded 0 [0x1000]).prog[(loaded 0 [0x1000]).pc]? = some 0x1000 ∧
      decode 0x1000 = .op .push ∧ ∃ t, step (loaded 0 [0x1000]) = .next t := by
  refine ⟨rfl, rfl, by decide, _, rfl⟩

theorem test_witness_IllegalWordRaisesIllegalCommand :
    (loaded 0 [0x0000]).faultMark = none ∧ (loaded 0 [0x0000]).prog[(loaded 0 [0x0000]).pc]? = some 0x0000 ∧
      ∀ i, decode 0x0000 ≠ .op i := by
  refine ⟨rfl, rfl, fun i h => ?_⟩
  rw [show decode 0x0000 = .illegal .noOperation by decide] at h
  cases h

theorem test_witness_FaultedMachineIsStuck : ((loaded 0 []).raiseIllegal 0x0000).faultMark = some 0x0000 := rfl

theorem test_witness_EndOfStreamHasNoMove :
    (loaded 0 []).faultMark = none ∧ (loaded 0 []).pc = (loaded 0 []).prog.length := ⟨rfl, rfl⟩

theorem test_witness_PlacedWordRunsNext : decode 0x7000 = .op .ledoff := by decide

/-- A step that runs an operation, and one that raises the fault. -/
theorem test_witness_StepNeverWritesMapStreamOrHostState :
    (∃ t, step (loaded 0 [0x6000]) = .next t ∧ t.faultMark = none) ∧
      ∃ t, step (loaded 0 [0xA000]) = .next t ∧ t.faultMark = some 0xA000 := ⟨⟨_, rfl, rfl⟩, _, rfl, rfl⟩

theorem test_witness_StepKeepsInvariants :
    (loaded 0 [0x6000]).Inv ∧ ∃ t, step (loaded 0 [0x6000]) = .next t :=
  ⟨⟨⟨rfl, rfl, rfl⟩, fun h => (nomatch h), .inl rfl⟩, _, rfl⟩

theorem test_witness_WiresAreAFunctionOfTheTrace :
    (loaded 0 [0x6000]).wire =
        (Wire.powerUp 0 0).replay (loaded 0 [0x6000]).pm (loaded 0 [0x6000]).trace ∧
      ∃ t, step (loaded 0 [0x6000]) = .next t := ⟨rfl, _, rfl⟩

theorem test_witness_PushTransmitsTheShadow : quiet.wire.Idle := quiet_idle

/-- Both clauses, at the event counts where they meet. -/
theorem test_witness_OutputsHoldUntilTheLatchRise : quiet.wire.Idle ∧ 48 ≤ 48 ∧ 49 ≤ 49 :=
  ⟨quiet_idle, Nat.le_refl _, Nat.le_refl _⟩

theorem test_witness_BatchedMutationsAppearAtOnePush : quiet.wire.Idle ∧ ∀ idx v, Instr.wnib 0x05 ≠ .setbit idx v :=
  ⟨quiet_idle, fun _ _ h => nomatch h⟩

/-- Both kinds of operation. -/
theorem test_witness_OutputsEqualTheShadowAfterAPush :
    quiet.wire.Idle ∧ pushes .ledon = true ∧ pushes (.setbit 0 true) = false := ⟨quiet_idle, rfl, rfl⟩

theorem test_witness_PulseStrobesEnableOnce : quiet.wire.Idle := quiet_idle
theorem test_witness_WnibWritesAndStrobesTheNibble : quiet.wire.Idle := quiet_idle
theorem test_witness_FidleForcesRsAndEnable : quiet.wire.Idle := quiet_idle
theorem test_witness_FidleRecordIsADraw : quiet.wire.Idle := quiet_idle

theorem test_witness_PulseRecordsOneNibble :
    quiet.wire.Idle ∧ quiet.pm.Distinct ∧ bitAt quiet.wire.q quiet.pm.en = false :=
  ⟨quiet_idle, default_distinct, by decide⟩

/-- The clause with EN low in the shadow, and the one with it high. -/
theorem test_witness_WnibRecordsItsNibble :
    (quiet.wire.Idle ∧ quiet.pm.Distinct ∧ bitAt quiet.wire.q quiet.pm.en = false ∧
      bitAt quiet.shadow quiet.pm.en = false) ∧
    (enHigh.wire.Idle ∧ enHigh.pm.Distinct ∧ bitAt enHigh.wire.q enHigh.pm.en = false ∧
      bitAt enHigh.shadow enHigh.pm.en = true) :=
  ⟨⟨quiet_idle, default_distinct, by decide, by decide⟩, ⟨rfl, rfl, rfl⟩, default_distinct, by decide, by decide⟩

/-- EN high on the outputs and in the shadow; `S = 0xF8`, `Q = 0xFF`. -/
abbrev enBoth : State := machine 0xF8 0xFF

/-- The clauses with no fall (EN low on the outputs; high on both), the fall that changes RS and data (`S = 0x04`,
`Q = 0xFF`), and the fall that changes neither (`S = 0x04`, `Q = 0x08`). -/
theorem test_witness_OnePushRecordsItsEnableFall :
    (Instr.ledon ∈ [Instr.push, .ledon, .ledoff] ∧ quiet.wire.Idle ∧ bitAt quiet.wire.q quiet.pm.en = false) ∧
    (enBoth.wire.Idle ∧ bitAt enBoth.wire.q enBoth.pm.en = true ∧ bitAt enBoth.shadow enBoth.pm.en = true) ∧
    (bitAt (machine 0x04 0xFF).wire.q 3 = true ∧ bitAt (machine 0x04 0xFF).shadow 3 = false ∧
      bitAt (machine 0x04 0xFF).wire.q 1 ≠ bitAt (machine 0x04 0xFF).shadow 1) ∧
    (bitAt (machine 0x04 0x08).wire.q 3 = true ∧ bitAt (machine 0x04 0x08).shadow 3 = false ∧
      ∀ j ∈ [PinMap.default.rs, PinMap.default.d0, PinMap.default.d1, PinMap.default.d2, PinMap.default.d3],
        bitAt (machine 0x04 0x08).wire.q j = bitAt (machine 0x04 0x08).shadow j) :=
  ⟨⟨by decide, quiet_idle, by decide⟩, ⟨⟨rfl, rfl, rfl⟩, by decide, by decide⟩, by decide, by decide⟩

/-- L2.1 #8: SETBIT of EN and PUSH make a strobe that the first push of PULSE ends; RS and data do not change. -/
theorem test_push_en_then_pulse : nextHas (exec .pulse (machine 0x08 0x08)) (fun t =>
    t.wire.nl == [⟨false, 0⟩, ⟨false, 0⟩] && t.wire.draws == 0) = true := by decide +kernel

/-- L2.1 #3: the first push is an enable fall with RS and data changing, one record that is a draw. -/
theorem test_push_draw : nextHas (exec .push (machine 0x00 0xFF)) (fun t =>
    t.wire.nl.length == 1 && t.wire.draws == 1 && t.wire.q == 0x00) = true := by decide +kernel

/-- The clauses with EN low in the shadow, and the ones with it high. -/
theorem test_witness_StrobesRecordTheFallAtEntry :
    ((machine 0x04 0xFF).wire.Idle ∧ (machine 0x04 0xFF).pm.Distinct ∧ bitAt (machine 0x04 0xFF).wire.q 3 = true ∧
      bitAt (machine 0x04 0xFF).shadow 3 = false) ∧
    (enBoth.wire.Idle ∧ enBoth.pm.Distinct ∧ bitAt enBoth.wire.q enBoth.pm.en = true ∧
      bitAt enBoth.shadow enBoth.pm.en = true) :=
  ⟨⟨⟨rfl, rfl, rfl⟩, default_distinct, by decide, by decide⟩, ⟨rfl, rfl, rfl⟩, default_distinct, by decide, by decide⟩

theorem test_witness_SendEncodesTheByte : quiet.wire.Idle := quiet_idle

/-- The clause with EN low in the shadow, and the one with it high. -/
theorem test_witness_SendRecordsHighThenLowNibble :
    (quiet.wire.Idle ∧ quiet.pm.Distinct ∧ bitAt quiet.wire.q quiet.pm.en = false ∧
      bitAt quiet.shadow quiet.pm.en = false) ∧
    (enHigh.wire.Idle ∧ enHigh.pm.Distinct ∧ bitAt enHigh.wire.q enHigh.pm.en = false ∧
      bitAt enHigh.shadow enHigh.pm.en = true) :=
  ⟨⟨quiet_idle, default_distinct, by decide, by decide⟩, ⟨rfl, rfl, rfl⟩, default_distinct, by decide, by decide⟩

theorem test_witness_SendSettlesBeforeEnableRises :
    quiet.wire.Idle ∧ quiet.pm.Distinct ∧ bitAt quiet.shadow quiet.pm.en = false ∧
      bitAt quiet.wire.q quiet.pm.en = false := ⟨quiet_idle, default_distinct, by decide, by decide⟩

theorem test_witness_StrobesMeetTheirTiming :
    quiet.wire.Idle ∧ quiet.pm.Distinct ∧ bitAt quiet.shadow quiet.pm.en = false ∧
      bitAt quiet.wire.q quiet.pm.en = false := ⟨quiet_idle, default_distinct, by decide, by decide⟩

theorem test_witness_LedonWritesZeroAndPushes : quiet.wire.Idle := quiet_idle
theorem test_witness_LedoffWritesOneAndPushes : quiet.wire.Idle := quiet_idle

theorem test_witness_LedToggleChangesOneBit :
    quiet.pm.Distinct ∧ quiet.pm.rs ∈ [quiet.pm.rs, quiet.pm.en, quiet.pm.d0, quiet.pm.d1, quiet.pm.d2, quiet.pm.d3] ∧
      (0 : BitIndex) ≠ quiet.pm.led := ⟨default_distinct, by decide, by decide⟩

/-- Both clauses. -/
theorem test_witness_RespReportsWritesOnly :
    (∃ b, Instr.send 0x41 true = .send b true) ∧ ∀ b, Instr.send 0x41 false ≠ .send b true :=
  ⟨⟨_, rfl⟩, fun _ h => nomatch h⟩

/-- Both ends of the range. -/
theorem test_witness_BeginEmitsItsFourteenWords :
    (1 ≤ (1 : Byte).toNat ∧ (1 : Byte).toNat ≤ 4) ∧ 1 ≤ (4 : Byte).toNat ∧ (4 : Byte).toNat ≤ 4 := by decide

/-- Both sides of the range. -/
theorem test_witness_BeginRefusesOtherLineCounts : (0 : Byte).toNat = 0 ∧ 4 < (5 : Byte).toNat := by decide

theorem test_witness_LcdOperationsNeedBegin :
    (machine 0 0).initialised = false ∧ allowedBeforeBegin .clear = false := ⟨rfl, rfl⟩

/-- Both clauses: before `begin` and after it. -/
theorem test_witness_DisplayIsIdempotent : (machine 0 0).ds = none ∧ ∃ d, (begun 1).ds = some d := ⟨rfl, _, rfl⟩

theorem test_witness_ClearAndHomeWaitTwoMilliseconds : (begun 1).initialised = true := by decide
theorem test_witness_FlagOperationsSendTheWholeControlWord : ∃ d, (begun 1).ds = some d := ⟨_, rfl⟩

/-- The clause of `setCursor` at the last row that is not clamped and the first that is. -/
theorem test_witness_SetCursorClampsTheRow :
    ∃ d, (begun 2).ds = some d ∧ d.lines.count = 2 ∧
      (if (1 : Byte).toNat ≥ 2 then 2 - 1 else (1 : Byte).toNat) = 1 ∧
      (if (2 : Byte).toNat ≥ 2 then 2 - 1 else (2 : Byte).toNat) = 1 ∧
      ([0x00, 0x40, 0x14, 0x54] : List Byte)[1]? = some 0x40 := ⟨_, rfl, by decide, by decide, by decide, by decide⟩

theorem test_witness_CreateCharMasksTheSlot : (begun 1).initialised = true := by decide

theorem test_witness_CommandAndWriteEmitOneWord :
    (begun 1).initialised = true ∧ (loaded 0 [writeWord 0x41]).faultMark = none ∧
      (loaded 0 [writeWord 0x41]).prog[(loaded 0 [writeWord 0x41]).pc]? = some (writeWord 0x41) :=
  ⟨by decide, rfl, rfl⟩

/-- The two inner premises: a mark already set, and a call that sets it. -/
theorem test_witness_HostCallsLeaveTheBlockAlone :
    (hostCall referenceBytes .clear (machine 0 0)).href ≠ none ∧
      (hostCall referenceBytes .clear (machine 0 0)).href ≠ (machine 0 0).href := by decide

theorem test_witness_BeginMeetsTheHostConditions :
    (machine 0 0).prog = [] ∧ 1 ≤ (1 : Byte).toNat ∧ (1 : Byte).toNat ≤ 4 ∧
      (∀ two font, referenceBytes.funcset two font ≠ referenceBytes.clear ∧
        referenceBytes.funcset two font ≠ referenceBytes.home) ∧
      referenceBytes.dispctl true false false ≠ referenceBytes.clear ∧
      referenceBytes.dispctl true false false ≠ referenceBytes.home ∧
      referenceBytes.entry true false ≠ referenceBytes.clear ∧
      referenceBytes.entry true false ≠ referenceBytes.home := by decide

/-- Two instances on lines of their own. -/
def pair : List DisplayInstance := [⟨1, 2, 3, loaded 0 [0x6000]⟩, ⟨4, 5, 6, loaded 0 [0x7000]⟩]

/-- A step of the first, and a third instance that would share a line. -/
theorem test_witness_InstancesShareNothing :
    (∃ sys, stepInstance pair 0 = .next sys) ∧ (1 : Nat) ≠ 0 ∧
      addInstance pair ⟨6, 7, 8, machine 0 0⟩ = none ∧ addInstance pair ⟨7, 8, 9, machine 0 0⟩ ≠ none :=
  ⟨⟨_, rfl⟩, by decide, by decide, by decide⟩

/-- The premises on lines: `pair` keeps them separate, and two instances on one clock line do not. -/
theorem test_witness_InstancesShareNothing_lines : SeparateLines pair ∧
    ¬ SeparateLines [⟨1, 2, 3, machine 0 0⟩, ⟨4, 2, 6, machine 0 0⟩] := by
  constructor
  · intro i j d e hij hd he
    rcases i with _ | _ | i <;> rcases j with _ | _ | j <;> simp_all [pair]
    all_goals subst hd he; simp [DisplayInstance.pins]
  · exact fun h => h 0 1 _ _ (by decide) rfl rfl 2 (by simp [DisplayInstance.pins]) (by simp [DisplayInstance.pins])

/-- I13: two instances on one clock line have no move, whichever is to step. -/
theorem test_shared_line_refused :
    ([0, 1].map fun k => match stepInstance
        [⟨1, 2, 3, loaded 0 [0x6000]⟩, ⟨4, 2, 6, loaded 0 [0x7000]⟩] k with
      | .refused r => r == .sharedLine
      | _ => false) = [true, true] := by decide

end Sys2Proof.Tests
end

/-! The bits of the shadow after each operation that writes one, under any pin map (R25). -/

namespace Sys2Proof.ShadowBits

open Sys2Proof.Machine Sys2Proof.Claims

/-- After a nibble write the enable bit, written last, wins over the data bits (R25, R120, R121). -/
theorem bitAt_nibbleShadow (pm : PinMap) (x : Byte) (n : Nibble) (j : BitIndex) :
    bitAt (nibbleShadow pm x n) j = strobedBit pm n (bitAt x j) j := by
  rw [nibbleShadow, bitAt_setBit, bitAt_setNibble, strobedBit]

/-- Every nibble write touches the same bits, so of two in a row only the second one's values are left (R25, R140). -/
theorem strobedBit_strobedBit (pm : PinMap) (hi lo : Nibble) (old : Bool) (j : BitIndex) :
    strobedBit pm lo (strobedBit pm hi old j) j = strobedBit pm lo old j := by
  unfold strobedBit
  split_ifs <;> rfl

variable (s : State) (j : BitIndex)

theorem bitAt_shadow_pulse :
    bitAt (execState .pulse s).shadow j = if j = s.pm.en then false else bitAt s.shadow j := by
  simp [execState_pulse]

theorem bitAt_shadow_wnib (n : Byte) :
    bitAt (execState (.wnib n) s).shadow j = strobedBit s.pm (lowNibble n) (bitAt s.shadow j) j := by
  simp [execState_wnib, bitAt_nibbleShadow]

theorem bitAt_shadow_send (b : Byte) (d : Bool) :
    bitAt (execState (.send b d) s).shadow j =
      strobedBit s.pm (lowNibble b) (if j = s.pm.rs then d else bitAt s.shadow j) j := by
  simp [execState_send, bitAt_nibbleShadow, strobedBit_strobedBit]

/-- FIDLE writes RS and EN twice each, and both of the last writes are 0, so their order does not show (R124). -/
theorem bitAt_shadow_fidle :
    bitAt (execState .fidle s).shadow j = if j = s.pm.rs ∨ j = s.pm.en then false else bitAt s.shadow j := by
  by_cases hrs : j = s.pm.rs <;> by_cases hen : j = s.pm.en <;> simp [execState_fidle, hrs, hen]

theorem bitAt_shadow_ledon :
    bitAt (execState .ledon s).shadow j = if j = s.pm.led then false else bitAt s.shadow j := by
  simp [execState_ledon]

theorem bitAt_shadow_ledoff :
    bitAt (execState .ledoff s).shadow j = if j = s.pm.led then true else bitAt s.shadow j := by
  simp [execState_ledoff]

/-- Settles O29: each operation completes (`exec_eq`), and its shadow is read bit by bit above. -/
theorem lastWriteWinsUnderAnyPinMap : Obligations.LastWriteWinsUnderAnyPinMap := by
  unfold Obligations.LastWriteWinsUnderAnyPinMap
  intro s
  exact ⟨⟨_, exec_eq _ s, bitAt_shadow_pulse s⟩,
    fun n => ⟨_, exec_eq _ s, fun j => bitAt_shadow_wnib s j n⟩,
    fun b d => ⟨_, exec_eq _ s, fun j => bitAt_shadow_send s j b d⟩,
    ⟨_, exec_eq _ s, bitAt_shadow_fidle s⟩,
    ⟨_, exec_eq _ s, bitAt_shadow_ledon s⟩,
    ⟨_, exec_eq _ s, bitAt_shadow_ledoff s⟩⟩

end Sys2Proof.ShadowBits

/-! The serial encoder: what a push leaves of the whole state (R100, R102). -/

namespace Sys2Proof.SerialEncoder

open Sys2Proof.Machine Sys2Proof.Claims

/-- The machine's loop over the bits, 7 down to 0, unrolls to the 53 events that R100 lists. -/
theorem pushEvents_eq_shiftOut (v : Byte) : pushEvents v = shiftOut v := rfl

/-- The whole state after `Push()` on idle lines: the wires, the trace and the mark change, nothing else (R52, R100). -/
theorem push_of_idle (s : State) (h : s.wire.Idle) :
    s.push = { s with
      wire := s.wire.latched s.pm s.shadow, trace := s.trace ++ shiftOut s.shadow, pushed := true } := by
  ext1
  case wire => exact State.push_wire_of_idle s h
  case trace => rw [State.push_trace, pushEvents_eq_shiftOut]
  all_goals rfl

/-- Settles O18: PUSH is one `Push()` of the shadow (`push_of_idle`), retired with `RESP` 0; the register and the lines
are then read off `latched`. -/
theorem pushTransmitsTheShadow : Obligations.PushTransmitsTheShadow := by
  unfold Obligations.PushTransmitsTheShadow
  intro s h
  refine ⟨?_, Wire.latched_sr _ _ _, Wire.latched_q _ _ _, Wire.latched_idle _ _ _⟩
  rw [exec_eq, execState_push, push_of_idle s h]
  rfl

end Sys2Proof.SerialEncoder

/-! The enable pulse: what it leaves of the whole state (R121, R123). -/

namespace Sys2Proof.EnablePulse

open Sys2Proof.Machine Sys2Proof.Claims Sys2Proof.SerialEncoder

/-- The machine's three pushes, each with its wait, are the strobe between the two enable levels that R121 lists. -/
theorem pulseEvents_eq_strobe (pm : PinMap) (v : Byte) :
    pulseEvents pm v = strobe (setBit v pm.en false) (setBit v pm.en true) := by
  simp only [pulseEvents, strobe, pushEvents_eq_shiftOut]
  rfl

/-- The whole state after `PulseEnable()` on idle lines: the enable bit of the shadow is left 0, the wires, the trace
and the mark change, nothing else (R121, R122). -/
theorem pulseEnable_of_idle (s : State) (h : s.wire.Idle) :
    s.pulseEnable = { s with
      shadow := setBit s.shadow s.pm.en false, wire := s.wire.latchedAll s.pm (pulseValues s.pm s.shadow),
      trace := s.trace ++ strobe (setBit s.shadow s.pm.en false) (setBit s.shadow s.pm.en true), pushed := true } := by
  ext1
  case shadow => exact State.pulseEnable_shadow s
  case wire => exact State.pulseEnable_wire_of_idle s h
  case trace => rw [State.pulseEnable_trace, pulseEvents_eq_strobe]
  all_goals rfl

/-- Settles O23: PULSE is one `PulseEnable()` (`pulseEnable_of_idle`), retired with `RESP` 0. -/
theorem pulseStrobesEnableOnce : Obligations.PulseStrobesEnableOnce := by
  unfold Obligations.PulseStrobesEnableOnce
  intro s h
  rw [exec_eq, execState_pulse, pulseEnable_of_idle s h]
  rfl

end Sys2Proof.EnablePulse

/-! The side line: what LEDON and LEDOFF leave of the whole state (R162, R163). -/

namespace Sys2Proof.SideLine

open Sys2Proof.Machine Sys2Proof.Claims Sys2Proof.SerialEncoder

/-- One shadow bit written and pushed on idle lines, retired with `RESP` 0: the rule the two LED operations share, which
differ in the bit's value only (R52, R102, R162, R163). -/
theorem writeBit_push_retire_of_idle (s : State) (i : BitIndex) (v : Bool) (h : s.wire.Idle) :
    (s.writeBit i v).push.retire respNone = { s with
      shadow := setBit s.shadow i v, wire := s.wire.latched s.pm (setBit s.shadow i v),
      trace := s.trace ++ shiftOut (setBit s.shadow i v), pushed := true, resp := 0, pc := s.pc + 1 } := by
  have idle : (s.writeBit i v).wire.Idle := h
  rw [push_of_idle _ idle]
  rfl

/-- Settles O34: LEDON is the shared rule for the value 0 of the LED bit. -/
theorem ledonWritesZeroAndPushes : Obligations.LedonWritesZeroAndPushes := by
  unfold Obligations.LedonWritesZeroAndPushes
  intro s h
  rw [exec_eq, execState_ledon, writeBit_push_retire_of_idle s s.pm.led false h]

/-- Settles O35: LEDOFF is the shared rule for the value 1 of the LED bit. -/
theorem ledoffWritesOneAndPushes : Obligations.LedoffWritesOneAndPushes := by
  unfold Obligations.LedoffWritesOneAndPushes
  intro s h
  rw [exec_eq, execState_ledoff, writeBit_push_retire_of_idle s s.pm.led true h]

end Sys2Proof.SideLine

/-! The words of SEND, and the step that runs one (R70 to R73, R77, R78, R140). -/

namespace Sys2Proof.SendWord

open Sys2Proof.Machine Sys2Proof.Claims

theorem encode_cmd (b : Byte) : encode (.cmd b) = cmdWord b := rfl

theorem encode_write (b : Byte) : encode (.write b) = writeWord b := rfl

/-- The fields of SEND stand apart in its word, so the decoder reads each one back (R72, R140). -/
theorem decode_encode_send (b : Byte) (d : Bool) : decode (encode (.send b d)) = .op (.send b d) := by
  have opcode : opcodeOf (encode (.send b d)) = 0x5#4 := by
    ext k hk; interval_cases k <;> simp [opcodeOf, encode]
  have reserved : (encode (.send b d)).extractLsb' 9 3 = 0 := by
    ext k hk; interval_cases k <;> simp [encode]
  have byte : (encode (.send b d)).extractLsb' 0 8 = b := by
    ext k hk; interval_cases k <;> simp [encode]
  have flag : (encode (.send b d)).getLsbD 8 = d := by
    simp [encode, -BitVec.getLsbD_eq_getElem]
  simp only [decode, opcode, ifReserved, reserved, byte, flag, beq_self_eq_true, if_true]

/-- An unfaulted step at a legal word is its operation (R78). -/
theorem step_eq_of_decode {s : State} {w : Word} {i : Instr} (unmarked : s.faultMark = none)
    (fetched : s.prog[s.pc]? = some w) (decoded : decode w = .op i) : step s = .next (execState i s) := by
  simp [step, unmarked, State.fetch, fetched, decoded, exec_eq]

/-- The step that runs the word of SEND leaves in `RESP` the number of data bytes consumed (R32, R140). -/
theorem step_send {s : State} {b : Byte} {d : Bool} (unmarked : s.faultMark = none)
    (fetched : s.prog[s.pc]? = some (encode (.send b d))) : ∃ t, step s = .next t ∧ t.resp = respSend d :=
  ⟨_, step_eq_of_decode unmarked fetched (decode_encode_send b d), by rw [execState_send, State.retire_resp]⟩

end Sys2Proof.SendWord

/-! The LCD operations of the host after `begin`: one rule for each of the three shapes of `hostAnswer`, then the calls
(R202 to R210, R215). -/

namespace Sys2Proof.HostCalls

open Sys2Proof.Machine Sys2Proof.Claims Sys2Proof.SendWord

theorem initialised_iff (s : State) : s.initialised = true ↔ ∃ d, s.ds = some d := Option.isSome_iff_exists

/-- A call that is answered appends the words of its operations and sets `DS` (R200, R243). -/
theorem hostCall_of_emits {cb : Config.CommandBytes} {op : HostOp} {s : State} {ops : List Instr}
    {ds : Option DisplayState} (answer : hostAnswer cb op s.ds = .emits ops ds) :
    hostCall cb op s = { s with prog := s.prog ++ ops.map encode, ds := ds } := by
  rw [hostCall, answer]

section AfterBegin

variable {cb : Config.CommandBytes} {op : HostOp} {s : State} {d : DisplayState} (begun : s.ds = some d)

include begun

/-- The calls that only send words: the stream grows and `DS` stays (R203, R204, R208, R215). -/
theorem hostCall_of_plainOp (f : DisplayState → List Instr) (answer : hostAnswer cb op s.ds = plainOp s.ds f) :
    hostCall cb op s = { s with prog := s.prog ++ (f d).map encode } := by
  have emits : hostAnswer cb op s.ds = .emits (f d) s.ds := by rw [answer, begun]; rfl
  rw [hostCall_of_emits emits]

/-- The calls that change a display-control flag send the command of the changed flags (R202, R205 to R207). -/
theorem hostCall_of_controlOp (f : DisplayState → DisplayState)
    (answer : hostAnswer cb op s.ds = controlOp cb s.ds f) :
    hostCall cb op s = { s with
      prog := s.prog ++ [cmdWord (cb.dispctl (f d).display (f d).cursor (f d).blink)], ds := some (f d) } := by
  have emits : hostAnswer cb op s.ds = .emits (sendDisplayControl cb (f d)) (some (f d)) := by rw [answer, begun]; rfl
  rw [hostCall_of_emits emits, sendDisplayControl, List.map_singleton, encode_cmd]

/-- The calls that change an entry-mode flag send the command of the changed flags (R202, R209, R210). -/
theorem hostCall_of_entryOp (f : DisplayState → DisplayState)
    (answer : hostAnswer cb op s.ds = entryOp cb s.ds f) :
    hostCall cb op s = { s with
      prog := s.prog ++ [cmdWord (cb.entry (f d).ltr (f d).autoscroll)], ds := some (f d) } := by
  have emits : hostAnswer cb op s.ds = .emits (sendEntryMode cb (f d)) (some (f d)) := by rw [answer, begun]; rfl
  rw [hostCall_of_emits emits, sendEntryMode, List.map_singleton, encode_cmd]

end AfterBegin

/-- Settles O43: both calls only send words (`hostCall_of_plainOp`), and the delay of 2 ms encodes to `0x9802`. -/
theorem clearAndHomeWaitTwoMilliseconds : Obligations.ClearAndHomeWaitTwoMilliseconds := by
  unfold Obligations.ClearAndHomeWaitTwoMilliseconds
  intro cb s initialised
  obtain ⟨d, begun⟩ := (initialised_iff s).1 initialised
  exact ⟨hostCall_of_plainOp begun (fun _ => clearOps cb) rfl, hostCall_of_plainOp begun (fun _ => homeOps cb) rfl⟩

/-- Settles O44: each call has one of the three shapes, and the change of `DS` it makes is written beside it. -/
theorem flagOperationsSendTheWholeControlWord : Obligations.FlagOperationsSendTheWholeControlWord := by
  unfold Obligations.FlagOperationsSendTheWholeControlWord
  intro cb s d begun
  exact ⟨hostCall_of_controlOp begun ({ · with display := true }) rfl,
    hostCall_of_controlOp begun ({ · with display := false }) rfl,
    hostCall_of_controlOp begun ({ · with cursor := true }) rfl,
    hostCall_of_controlOp begun ({ · with cursor := false }) rfl,
    hostCall_of_controlOp begun ({ · with blink := true }) rfl,
    hostCall_of_controlOp begun ({ · with blink := false }) rfl,
    hostCall_of_entryOp begun ({ · with ltr := true }) rfl,
    hostCall_of_entryOp begun ({ · with ltr := false }) rfl,
    hostCall_of_entryOp begun ({ · with autoscroll := true }) rfl,
    hostCall_of_entryOp begun ({ · with autoscroll := false }) rfl,
    hostCall_of_plainOp begun (fun _ => [.cmd (cb.shift false)]) rfl,
    hostCall_of_plainOp begun (fun _ => [.cmd (cb.shift true)]) rfl⟩

/-- Settles O48: both calls only send one word, and the step that runs the word of WRITE is `step_send` for data. -/
theorem commandAndWriteEmitOneWord : Obligations.CommandAndWriteEmitOneWord := by
  unfold Obligations.CommandAndWriteEmitOneWord
  intro cb s b initialised
  obtain ⟨d, begun⟩ := (initialised_iff s).1 initialised
  refine ⟨hostCall_of_plainOp begun (fun _ => [.cmd b]) rfl, hostCall_of_plainOp begun (fun _ => [.write b]) rfl, ?_⟩
  intro u unmarked fetched
  rw [← encode_write] at fetched
  exact step_send unmarked fetched

end Sys2Proof.HostCalls

/-! When a mutation of the shadow reaches the outputs: at the latch rise of a push, and only SETBIT ends without one
(R52, R280). -/

namespace Sys2Proof.Mutations

open Sys2Proof.Machine Sys2Proof.Claims

variable (s : State)

theorem push_idle (h : s.wire.Idle) : s.push.wire.Idle := by
  rw [State.push_wire_of_idle s h]
  exact Wire.latched_idle _ _ _

theorem push_outputs_eq_shadow (h : s.wire.Idle) : s.push.wire.q = s.push.shadow := by
  rw [State.push_wire_of_idle s h, Wire.latched_q, State.push_shadow]

/-- The last of the pulse's three values is the shadow it leaves, with the enable bit low (R121). -/
theorem pulseEnable_outputs_eq_shadow (h : s.wire.Idle) : s.pulseEnable.wire.q = s.pulseEnable.shadow := by
  simp only [State.pulseEnable_wire_of_idle s h, State.pulseEnable_shadow, pulseValues, Wire.latchedAll_cons,
    Wire.latchedAll_nil, Wire.latched_q]

theorem writeNibble_outputs_eq_shadow (n : Nibble) (h : s.wire.Idle) :
    (s.writeNibble n).wire.q = (s.writeNibble n).shadow :=
  pulseEnable_outputs_eq_shadow _ (push_idle (s.writeData n) h)

theorem retire_outputs_eq_shadow (r : Byte) (shown : s.wire.q = s.shadow) :
    (s.retire r).wire.q = (s.retire r).shadow := shown

/-- SETBIT and DELAY are the operations without a push. Every other one ends with a push, an enable pulse or a nibble
write, and the pushes before that one have left the lines idle; DELAY mutates nothing (R280). -/
theorem shadow_eq_or_outputs_eq_shadow (i : Instr) (h : s.wire.Idle) (notSetbit : ∀ idx v, i ≠ .setbit idx v) :
    (execState i s).shadow = s.shadow ∨ (execState i s).wire.q = (execState i s).shadow := by
  cases i with
  | setbit idx v => exact absurd rfl (notSetbit idx v)
  | delay u c => exact .inl rfl
  | push =>
    rw [execState_push]
    exact .inr (retire_outputs_eq_shadow _ _ (push_outputs_eq_shadow s h))
  | wnib n =>
    rw [execState_wnib]
    exact .inr (retire_outputs_eq_shadow _ _ (writeNibble_outputs_eq_shadow s _ h))
  | pulse =>
    rw [execState_pulse]
    exact .inr (retire_outputs_eq_shadow _ _ (pulseEnable_outputs_eq_shadow s h))
  | send b d =>
    have rsShown : (s.writeBit s.pm.rs d).push.wire.Idle := push_idle _ h
    have highSent := State.writeNibble_idle _ (highNibble b) rsShown
    rw [execState_send]
    exact .inr (retire_outputs_eq_shadow _ _ (writeNibble_outputs_eq_shadow _ _ highSent))
  | ledon =>
    rw [execState_ledon]
    exact .inr (retire_outputs_eq_shadow _ _ (push_outputs_eq_shadow _ h))
  | ledoff =>
    rw [execState_ledoff]
    exact .inr (retire_outputs_eq_shadow _ _ (push_outputs_eq_shadow _ h))
  | fidle =>
    have bothHigh : ((s.writeBit s.pm.rs true).writeBit s.pm.en true).push.wire.Idle := push_idle _ h
    rw [execState_fidle]
    exact .inr (retire_outputs_eq_shadow _ _ (push_outputs_eq_shadow _ bothHigh))

/-- A PUSH shows the shadow at the one latch rise of its events (R52, R100). -/
theorem execState_push_shows_shadow_once (h : s.wire.Idle) :
    (execState .push s).wire.q = s.shadow ∧
      ∃ evs, (execState .push s).trace = s.trace ++ evs ∧ latchRises evs = 1 :=
  ⟨push_outputs_eq_shadow s h, pushEvents s.shadow, rfl, latchRises_pushEvents s.shadow⟩

/-- Two SETBITs before a push: both bits stand in the shadow, the later one winning on a shared index (R25, R103). -/
theorem bitAt_shadow_setbit_setbit (i j k : BitIndex) (a b : Bool) :
    bitAt (execState (.setbit j b) (execState (.setbit i a) s)).shadow k =
      if k = j then b else if k = i then a else bitAt s.shadow k := by
  simp only [execState_setbit, State.retire_shadow, State.writeBit_shadow, bitAt_setBit]

/-- Settles O21: a SETBIT leaves the wires and the trace as they were, so the PUSH after two of them starts from the
lines and the trace of the first state, and the bits it shows are those of the shadow. -/
theorem batchedMutationsAppearAtOnePush : Obligations.BatchedMutationsAppearAtOnePush := by
  unfold Obligations.BatchedMutationsAppearAtOnePush
  refine ⟨fun i j a b s h => ?_, fun i s h notSetbit =>
    ⟨_, exec_eq i s, shadow_eq_or_outputs_eq_shadow s i h notSetbit⟩⟩
  obtain ⟨shown, rise⟩ := execState_push_shows_shadow_once (execState (.setbit j b) (execState (.setbit i a) s)) h
  refine ⟨_, _, _, exec_eq _ s, exec_eq _ _, exec_eq _ _, rfl, rfl, shown, rise, fun k => ?_⟩
  rw [shown, bitAt_shadow_setbit_setbit]

end Sys2Proof.Mutations

/-! The encoding: a word is cut into the fields of its row, and the fields of an operation fix its word (R70 to R75). -/

namespace Sys2Proof.Encoding

open Sys2Proof.Machine Sys2Proof.Claims Sys2Proof.SendWord

/-- The fields of a word that stands for an operation: the opcode of its row, the reserved bits 0, the operands (R71,
R72). -/
def HasFields (w : Word) : Instr → Prop
  | .push => opcodeOf w = 0x1#4 ∧ w.extractLsb' 0 12 = 0
  | .setbit idx v => opcodeOf w = 0x2#4 ∧ w.extractLsb' 4 8 = 0 ∧ w.getLsbD 3 = v ∧ w.extractLsb' 0 3 = idx
  | .wnib n => opcodeOf w = 0x3#4 ∧ w.extractLsb' 8 4 = 0 ∧ w.extractLsb' 0 8 = n
  | .pulse => opcodeOf w = 0x4#4 ∧ w.extractLsb' 0 12 = 0
  | .send b d => opcodeOf w = 0x5#4 ∧ w.extractLsb' 9 3 = 0 ∧ w.getLsbD 8 = d ∧ w.extractLsb' 0 8 = b
  | .ledon => opcodeOf w = 0x6#4 ∧ w.extractLsb' 0 12 = 0
  | .ledoff => opcodeOf w = 0x7#4 ∧ w.extractLsb' 0 12 = 0
  | .fidle => opcodeOf w = 0x8#4 ∧ w.extractLsb' 0 12 = 0
  | .delay u c => opcodeOf w = 0x9#4 ∧ w.getLsbD 11 = u.bit ∧ w.extractLsb' 0 11 = c

theorem unitOfBit_bit (u : DelayUnit) : unitOfBit u.bit = u := by cases u <;> rfl

theorem bit_unitOfBit (u : Bool) : (unitOfBit u).bit = u := by cases u <;> rfl

theorem ifReserved_eq_op_iff {k : Nat} (x : BitVec k) (i j : Instr) :
    ifReserved (x == 0) i = .op j ↔ x = 0 ∧ i = j := by
  unfold ifReserved
  split <;> simp_all

/-- The decoder reads the fields of a row, and no word decodes to an operation without them (R71 to R75). -/
theorem decode_eq_op_iff (w : Word) (i : Instr) : decode w = .op i ↔ HasFields w i := by
  constructor
  · intro decoded
    unfold decode at decoded
    split at decoded
    case h_9 opcode =>
      obtain rfl : Instr.delay _ _ = i := by simpa using decoded
      exact ⟨opcode, (bit_unitOfBit _).symm, rfl⟩
    case h_10 => cases decoded
    all_goals
      rename_i opcode
      obtain ⟨reserved, rfl⟩ := (ifReserved_eq_op_iff _ _ _).1 decoded
    case h_2 | h_5 => exact ⟨opcode, reserved, rfl, rfl⟩
    case h_3 => exact ⟨opcode, reserved, rfl⟩
    all_goals exact ⟨opcode, reserved⟩
  · intro fields
    cases i with
    | setbit idx v | send b d =>
      obtain ⟨opcode, reserved, rfl, rfl⟩ := fields
      simp [decode, opcode, reserved, ifReserved]
    | wnib n =>
      obtain ⟨opcode, reserved, rfl⟩ := fields
      simp [decode, opcode, reserved, ifReserved]
    | delay u c =>
      obtain ⟨opcode, unit, rfl⟩ := fields
      simp only [decode, opcode, unit, unitOfBit_bit]
    | push | pulse | ledon | ledoff | fidle =>
      obtain ⟨opcode, reserved⟩ := fields
      simp [decode, opcode, reserved, ifReserved]

/-- The encoder puts each operand where the row has its field (R71, R72). -/
theorem encode_hasFields (i : Instr) : HasFields (encode i) i := by
  cases i with
  | setbit idx v =>
    refine ⟨?_, ?_, ?_, ?_⟩ <;> revert idx v <;> decide
  | wnib n =>
    refine ⟨?_, ?_, ?_⟩ <;> ext k hk <;> interval_cases k <;> simp [opcodeOf, encode]
  | send b d => exact (decode_eq_op_iff _ _).1 (decode_encode_send b d)
  | delay u c =>
    refine ⟨?_, by simp [encode, -BitVec.getLsbD_eq_getElem], ?_⟩ <;>
      ext k hk <;> interval_cases k <;> simp [opcodeOf, encode]
  | push | pulse | ledon | ledoff | fidle => exact ⟨by decide, by decide⟩

/-- Settles O1: the fields of an encoded operation are read back from its word. -/
theorem decodeOfEncodeGivesTheInstruction : Obligations.DecodeOfEncodeGivesTheInstruction := by
  unfold Obligations.DecodeOfEncodeGivesTheInstruction
  intro i
  exact (decode_eq_op_iff _ _).2 (encode_hasFields i)

/-- Two words agree on a field when they agree on its lower and its upper part. -/
theorem field_ext {v w : Word} {lo m n : Nat} (high : v.extractLsb' (lo + m) n = w.extractLsb' (lo + m) n)
    (low : v.extractLsb' lo m = w.extractLsb' lo m) : v.extractLsb' lo (n + m) = w.extractLsb' lo (n + m) := by
  simp only [← BitVec.extractLsb'_append_extractLsb'_eq_extractLsb' (rfl : lo + m = lo + m), high, low]

theorem bit_field_ext {v w : Word} {k : Nat} (h : v.getLsbD k = w.getLsbD k) :
    v.extractLsb' k 1 = w.extractLsb' k 1 := by
  ext j hj
  obtain rfl : j = 0 := by omega
  simpa using h

/-- A word is its opcode and the twelve bits below it (R70). -/
theorem word_ext {v w : Word} (opcode : opcodeOf v = opcodeOf w)
    (operand : v.extractLsb' 0 12 = w.extractLsb' 0 12) : v = w := by
  rw [← BitVec.extractLsb'_eq_self (x := v), ← BitVec.extractLsb'_eq_self (x := w)]
  exact field_ext (lo := 0) (m := 12) (n := 4) opcode operand

/-- The fields of an operation fill its word, so they belong to one word only (R71, R75). -/
theorem word_eq_of_hasFields {v w : Word} {i : Instr} (hv : HasFields v i) (hw : HasFields w i) : v = w := by
  cases i with
  | push | pulse | ledon | ledoff | fidle => exact word_ext (hv.1.trans hw.1.symm) (hv.2.trans hw.2.symm)
  | wnib n =>
    obtain ⟨vOpcode, vReserved, vByte⟩ := hv
    obtain ⟨wOpcode, wReserved, wByte⟩ := hw
    exact word_ext (vOpcode.trans wOpcode.symm) (field_ext (vReserved.trans wReserved.symm) (vByte.trans wByte.symm))
  | setbit | send =>
    obtain ⟨vOpcode, vReserved, vBit, vLow⟩ := hv
    obtain ⟨wOpcode, wReserved, wBit, wLow⟩ := hw
    have low := field_ext (bit_field_ext (vBit.trans wBit.symm)) (vLow.trans wLow.symm)
    exact word_ext (vOpcode.trans wOpcode.symm) (field_ext (vReserved.trans wReserved.symm) low)
  | delay u c =>
    obtain ⟨vOpcode, vUnit, vCount⟩ := hv
    obtain ⟨wOpcode, wUnit, wCount⟩ := hw
    exact word_ext (vOpcode.trans wOpcode.symm)
      (field_ext (bit_field_ext (vUnit.trans wUnit.symm)) (vCount.trans wCount.symm))

/-- Settles O2: the word and the encoding have the same fields. -/
theorem encodeOfDecodeGivesTheWord : Obligations.EncodeOfDecodeGivesTheWord := by
  unfold Obligations.EncodeOfDecodeGivesTheWord
  intro w i decoded
  exact word_eq_of_hasFields (encode_hasFields i) ((decode_eq_op_iff w i).1 decoded)

/-! The rows of the opcode table (R71, R73). -/

theorem tableRow_encode (i : Instr) : Laws.TableRow.Statement i := by
  cases i with
  | push => exact Laws.TableRow.push
  | setbit idx v => exact Laws.TableRow.setbit idx v
  | wnib n => exact Laws.TableRow.wnib n
  | pulse => exact Laws.TableRow.pulse
  | send b d => exact Laws.TableRow.send b d
  | ledon => exact Laws.TableRow.ledon
  | ledoff => exact Laws.TableRow.ledoff
  | fidle => exact Laws.TableRow.fidle
  | delay u c => exact Laws.TableRow.delay u c

theorem field_of_selected {w mask bits : Word} (selected : w &&& mask = bits) (lo n : Nat)
    (full : mask.extractLsb' lo n = BitVec.allOnes n) : w.extractLsb' lo n = bits.extractLsb' lo n := by
  rw [← selected, BitVec.extractLsb'_and, full, BitVec.and_allOnes]

/-- Every mask covers the opcode, and no two rows share one (R71). -/
theorem row_eq_of_selected {w : Word} {r q : OpcodeRow} (hr : r ∈ opcodeTable) (hq : q ∈ opcodeTable)
    (selectsR : w &&& r.mask = r.bits) (selectsQ : w &&& q.mask = q.bits) : r = q := by
  have full : ∀ x ∈ opcodeTable, x.mask.extractLsb' 12 4 = BitVec.allOnes 4 := by decide
  have apart : ∀ x ∈ opcodeTable, ∀ y ∈ opcodeTable, opcodeOf x.bits = opcodeOf y.bits → x = y := by decide
  apply apart r hr q hq
  have opcodeR := field_of_selected selectsR 12 4 (full r hr)
  have opcodeQ := field_of_selected selectsQ 12 4 (full q hq)
  exact opcodeR.symm.trans opcodeQ

/-- A word that a row selects has the fields of an operation: the mask covers the opcode and the reserved bits (R73). -/
theorem hasFields_of_selected {w : Word} {r : OpcodeRow} (hr : r ∈ opcodeTable) (selected : w &&& r.mask = r.bits) :
    ∃ i, HasFields w i := by
  have field := field_of_selected selected
  simp only [opcodeTable, List.mem_cons, List.not_mem_nil, or_false] at hr
  rcases hr with rfl | rfl | rfl | rfl | rfl | rfl | rfl | rfl | rfl
  · exact ⟨.push, field 12 4 (by decide), field 0 12 (by decide)⟩
  · exact ⟨.setbit _ _, field 12 4 (by decide), field 4 8 (by decide), rfl, rfl⟩
  · exact ⟨.wnib _, field 12 4 (by decide), field 8 4 (by decide), rfl⟩
  · exact ⟨.pulse, field 12 4 (by decide), field 0 12 (by decide)⟩
  · exact ⟨.send _ _, field 12 4 (by decide), field 9 3 (by decide), rfl, rfl⟩
  · exact ⟨.ledon, field 12 4 (by decide), field 0 12 (by decide)⟩
  · exact ⟨.ledoff, field 12 4 (by decide), field 0 12 (by decide)⟩
  · exact ⟨.fidle, field 12 4 (by decide), field 0 12 (by decide)⟩
  · exact ⟨.delay _ _, field 12 4 (by decide), (bit_unitOfBit _).symm, rfl⟩

/-- Settles O3: a decoded word is an encoding, which the row of its mnemonic selects, and that row is the only one. -/
theorem decoderFollowsTheOpcodeTable : Obligations.DecoderFollowsTheOpcodeTable := by
  unfold Obligations.DecoderFollowsTheOpcodeTable
  have ownRow (w : Word) (i : Instr) (decoded : decode w = .op i) :
      ∃ r ∈ opcodeTable, r.mnemonic = i.mnemonic ∧ w &&& r.mask = r.bits := by
    have word : encode i = w := encodeOfDecodeGivesTheWord w i decoded
    simpa only [Laws.TableRow.Statement, word] using tableRow_encode i
  refine ⟨fun w => ⟨fun ⟨i, decoded⟩ => ?_, fun ⟨r, hr, selected⟩ => ?_⟩, fun w i decoded r hr => ?_⟩
  · obtain ⟨r, hr, -, selected⟩ := ownRow w i decoded
    exact ⟨r, hr, selected⟩
  · obtain ⟨i, fields⟩ := hasFields_of_selected hr selected
    exact ⟨i, (decode_eq_op_iff w i).2 fields⟩
  · obtain ⟨own, hown, named, selected⟩ := ownRow w i decoded
    have distinctNames : ∀ x ∈ opcodeTable, ∀ y ∈ opcodeTable, x.mnemonic = y.mnemonic → x = y := by decide
    constructor
    · intro selectedR
      rw [row_eq_of_selected hr hown selectedR selected, named]
    · intro sameName
      rw [distinctNames r hr own hown (sameName.trans named.symm), selected]

end Sys2Proof.Encoding

/-! Words of the spec, the assembler, and all that one step does (R20, R43, R71, R76 to R78, R242). -/

namespace Sys2Proof.Stepping

open Sys2Proof.Machine Sys2Proof.Claims Sys2Proof.SendWord

/-- Settles O4: sixteen fixed words, decoded. -/
theorem wordsOfTheSpecDecodeRight : Obligations.WordsOfTheSpecDecodeRight := by
  unfold Obligations.WordsOfTheSpecDecodeRight
  decide

/-- The assembler refuses exactly the statements whose operands do not fit (R77, log 17). -/
theorem assemble_eq_none_iff (a : Asm) : assemble a = none ↔ a.WellFormed = false := by
  unfold assemble
  split <;> simp_all

/-- Settles O5: the pseudo-instructions differ from SEND in the text only, and DELAY is refused by its count. -/
theorem pseudoInstructionsAreSends : Obligations.PseudoInstructionsAreSends := by
  unfold Obligations.PseudoInstructionsAreSends
  refine ⟨fun b fits => ?_, fun b => ⟨encode_cmd b, encode_write b⟩, fun u c => ?_⟩
  · simp [assemble, Asm.WellFormed, fits]
  · rw [assemble_eq_none_iff, Asm.WellFormed, decide_eq_false_iff_not]
    omega

@[simp] theorem execState_pc (i : Instr) (s : State) : (execState i s).pc = s.pc + 1 := by cases i <;> rfl

@[simp] theorem execState_faultMark (i : Instr) (s : State) : (execState i s).faultMark = s.faultMark :=
  (exec_follows i s).faultMark

/-- Settles O6: the decoded operation is all of the step, and every operation retires one word on. -/
theorem stepRunsTheDecodedOperation : Obligations.StepRunsTheDecodedOperation := by
  unfold Obligations.StepRunsTheDecodedOperation
  intro s w i unmarked fetched decoded
  have runs := step_eq_of_decode unmarked fetched decoded
  refine ⟨by rw [runs, exec_eq], fun t next => ?_⟩
  obtain rfl : execState i s = t := by simpa [runs] using next
  exact execState_pc i s

/-- A fault mark stops the machine (R242). -/
theorem step_of_marked {s : State} {w : Word} (marked : s.faultMark = some w) :
    step s = .fault (.illegalCommand w) := by
  simp [step, marked]

/-- Settles O7: the word decodes to nothing, so the step is `raiseIllegal`, and the mark then stops the machine. -/
theorem illegalWordRaisesIllegalCommand : Obligations.IllegalWordRaisesIllegalCommand := by
  unfold Obligations.IllegalWordRaisesIllegalCommand
  intro s w unmarked fetched noOperation
  obtain ⟨why, illegal⟩ : ∃ why, decode w = .illegal why := by
    cases decoded : decode w with
    | op i => exact absurd decoded (noOperation i)
    | illegal why => exact ⟨why, rfl⟩
  have raises : step s = .next (s.raiseIllegal w) := by simp [step, unmarked, State.fetch, fetched, illegal]
  exact ⟨raises, step_of_marked rfl⟩

/-- Settles O8: the mark stops the machine, and a final state has none. -/
theorem faultedMachineIsStuck : Obligations.FaultedMachineIsStuck := by
  unfold Obligations.FaultedMachineIsStuck
  intro s w marked
  refine ⟨step_of_marked marked, fun ⟨_, unmarked, _⟩ => ?_⟩
  rw [marked] at unmarked
  cases unmarked

/-- Settles O9: there is no word at the end of the stream. -/
theorem endOfStreamHasNoMove : Obligations.EndOfStreamHasNoMove := by
  unfold Obligations.EndOfStreamHasNoMove
  intro s unmarked atEnd
  have nothing : s.fetch = none := List.getElem?_eq_none (by omega)
  simp [step, unmarked, nothing]

/-- The word is placed at `pc`: the stream before it is filled up to that position (log 7). -/
theorem withFetchWord_fetch (s : State) (nbits w : Nat) :
    (s.withFetchWord nbits w).fetch = some (tableWord nbits w) := by
  have filled : (s.prog.take s.pc ++ zeroWords (s.pc - s.prog.length)).length = s.pc := by
    simp only [zeroWords, List.length_append, List.length_take, List.length_replicate]
    omega
  rw [State.fetch, State.withFetchWord_prog, State.withFetchWord_pc, List.getElem?_append_right filled.le, filled,
    Nat.sub_self]
  rfl

/-- Settles O10: the placed word is fetched, and the interface clears the mark. -/
theorem placedWordRunsNext : Obligations.PlacedWordRunsNext := by
  unfold Obligations.PlacedWordRunsNext
  intro s w i decoded
  have word : tableWord 16 w.toNat = w := by simp [tableWord, Nat.mod_eq_of_lt w.isLt]
  have fetched : (s.withFetchWord 16 w.toNat).fetch = some w := by rw [withFetchWord_fetch, word]
  rw [exec_eq]
  exact step_eq_of_decode rfl fetched decoded

/-- Settles O11: every operation answers its state. -/
theorem everyOperationCompletes : Obligations.EveryOperationCompletes := by
  unfold Obligations.EveryOperationCompletes
  intro i s
  exact ⟨_, exec_eq i s, execState_pc i s, execState_faultMark i s⟩

/-- A step with a next state starts without a mark and records an illegal word or runs an operation (R78, R242). -/
theorem next_cases {s t : State} (next : step s = .next t) :
    s.faultMark = none ∧ ((∃ w, t = s.raiseIllegal w) ∨ ∃ i, t = execState i s) := by
  obtain ⟨w, -, h⟩ | ⟨-, -, h⟩ | ⟨w, why, unmarked, -, -, h⟩ | ⟨w, i, unmarked, -, -, h⟩ := step_cases s
  · simp [h] at next
  · simp [h] at next
  · rw [h, Host.Outcome.next.injEq] at next
    exact ⟨unmarked, .inl ⟨w, next.symm⟩⟩
  · rw [h, exec_eq, Host.Outcome.next.injEq] at next
    exact ⟨unmarked, .inr ⟨i, next.symm⟩⟩

/-- Settles O12: recording a fault changes the mark alone, and what an operation may change is `exec_follows`. -/
theorem stepNeverWritesMapStreamOrHostState : Obligations.StepNeverWritesMapStreamOrHostState := by
  unfold Obligations.StepNeverWritesMapStreamOrHostState
  intro s t next
  obtain ⟨unmarked, ⟨w, rfl⟩ | ⟨i, rfl⟩⟩ := next_cases next
  · exact ⟨rfl, rfl, rfl, rfl, List.prefix_rfl, fun h => by simp at h, fun _ _ => rfl⟩
  · obtain ⟨⟨evs, grows, -⟩, pm, prog, mark, ds, href⟩ := exec_follows i s
    refine ⟨pm, prog, ds, href, ⟨evs, grows.symm⟩, fun _ => execState_pc i s, fun w marked => ?_⟩
    rw [mark, unmarked] at marked
    cases marked

/-- Settles O15: recording a fault touches neither wires nor trace, and an operation's wires react to exactly the events
it appends. -/
theorem wiresAreAFunctionOfTheTrace : Obligations.WiresAreAFunctionOfTheTrace := by
  unfold Obligations.WiresAreAFunctionOfTheTrace
  intro w s t replayed next
  obtain ⟨-, ⟨_, rfl⟩ | ⟨i, rfl⟩⟩ := next_cases next
  · exact replayed
  · obtain ⟨⟨evs, grows, reacted⟩, pm, -⟩ := exec_follows i s
    rw [reacted, replayed, pm, grows, Wire.replay_append]

end Sys2Proof.Stepping

/-! Every operation as the events it emits and the values it pushes, and from these two the wires, the register, the
costs and the invariants (R28, R31, R52, R59, R290). -/

namespace Sys2Proof.Pushes

open Sys2Proof.Machine Sys2Proof.Claims Sys2Proof.SerialEncoder Sys2Proof.EnablePulse Sys2Proof.Stepping

/-- The shadow FIDLE pushes first: RS and EN high (R124). -/
def fidleUp (pm : PinMap) (x : Byte) : Byte := setBit (setBit x pm.rs true) pm.en true

/-- The shadow FIDLE pushes second: RS and EN low (R124). -/
def fidleDown (pm : PinMap) (x : Byte) : Byte := setBit (setBit (fidleUp pm x) pm.rs false) pm.en false

/-- The events an operation emits when the shadow holds `x` at its entry. -/
def emitted (pm : PinMap) (x : Byte) : Instr → List Event
  | .push => pushEvents x
  | .setbit _ _ => []
  | .wnib n => nibbleEvents pm x (lowNibble n)
  | .pulse => pulseEvents pm x
  | .send b d =>
    pushEvents (setBit x pm.rs d) ++ nibbleEvents pm (setBit x pm.rs d) (highNibble b) ++
      nibbleEvents pm (nibbleShadow pm (setBit x pm.rs d) (highNibble b)) (lowNibble b)
  | .ledon => pushEvents (setBit x pm.led false)
  | .ledoff => pushEvents (setBit x pm.led true)
  | .fidle => pushEvents (fidleUp pm x) ++ pushEvents (fidleDown pm x)
  | .delay u c => [.wait (delayNs u c)]

/-- The values an operation pushes when the shadow holds `x` at its entry. -/
def pushedValues (pm : PinMap) (x : Byte) : Instr → List Byte
  | .push => [x]
  | .setbit _ _ => []
  | .wnib n => nibbleValues pm x (lowNibble n)
  | .pulse => pulseValues pm x
  | .send b d =>
    setBit x pm.rs d :: (nibbleValues pm (setBit x pm.rs d) (highNibble b) ++
      nibbleValues pm (nibbleShadow pm (setBit x pm.rs d) (highNibble b)) (lowNibble b))
  | .ledon => [setBit x pm.led false]
  | .ledoff => [setBit x pm.led true]
  | .fidle => [fidleUp pm x, fidleDown pm x]
  | .delay _ _ => []

/-- The shadow an operation leaves when it holds `x` at its entry. -/
def leftShadow (pm : PinMap) (x : Byte) : Instr → Byte
  | .push | .delay _ _ => x
  | .setbit idx v => setBit x idx v
  | .wnib n => nibbleShadow pm x (lowNibble n)
  | .pulse => setBit x pm.en false
  | .send b d => nibbleShadow pm (nibbleShadow pm (setBit x pm.rs d) (highNibble b)) (lowNibble b)
  | .ledon => setBit x pm.led false
  | .ledoff => setBit x pm.led true
  | .fidle => fidleDown pm x

/-- What an operation reports in `RESP` (R32, R140). -/
def respOf : Instr → Byte
  | .send _ d => respSend d
  | _ => respNone

theorem execState_shadow (i : Instr) (s : State) : (execState i s).shadow = leftShadow s.pm s.shadow i := by
  cases i with
  | wnib n => simp [execState_wnib, leftShadow]
  | pulse => simp [execState_pulse, leftShadow]
  | send b d => simp [execState_send, leftShadow]
  | push | setbit idx v | ledon | ledoff | fidle | delay u c => rfl

theorem execState_resp (i : Instr) (s : State) : (execState i s).resp = respOf i := by cases i <;> rfl

theorem execState_pushed (i : Instr) (s : State) : (execState i s).pushed = (pushes i || s.pushed) := by
  cases i <;> rfl

/-- The model emits exactly these events (R40). -/
theorem execState_trace (i : Instr) (s : State) :
    (execState i s).trace = s.trace ++ emitted s.pm s.shadow i := by
  cases i with
  | push => simp [execState_push, emitted]
  | setbit idx v => simp [execState_setbit, emitted]
  | wnib n => simp [execState_wnib, emitted]
  | pulse => simp [execState_pulse, emitted]
  | send b d => simp [execState_send, emitted]
  | ledon => simp [execState_ledon, emitted]
  | ledoff => simp [execState_ledoff, emitted]
  | fidle => simp [execState_fidle, emitted, fidleUp, fidleDown]
  | delay u c => simp [execState_delay, emitted]

/-- The wires react to exactly these events (R20). -/
theorem execState_wire (i : Instr) (s : State) :
    (execState i s).wire = s.wire.replay s.pm (emitted s.pm s.shadow i) := by
  obtain ⟨evs, grows, reacted⟩ := (exec_follows i s).events
  rw [execState_trace, List.append_cancel_left_eq] at grows
  rw [reacted, grows]

@[simp] theorem latchedAll_append (pm : PinMap) (w : Wire) (vs us : List Byte) :
    w.latchedAll pm (vs ++ us) = (w.latchedAll pm vs).latchedAll pm us := by
  simp [Wire.latchedAll, List.foldl_append]

/-- On idle lines the events of an operation are complete pushes of its values (R52). -/
theorem replay_emitted (pm : PinMap) (x : Byte) (w : Wire) (i : Instr) (h : w.Idle) :
    w.replay pm (emitted pm x i) = w.latchedAll pm (pushedValues pm x i) := by
  cases i with
  | push => simp [emitted, pushedValues, Wire.replay_pushEvents, h]
  | setbit idx v => rfl
  | wnib n => exact Wire.replay_nibbleEvents pm w x _ h
  | pulse => exact Wire.replay_pulseEvents pm w x h
  | send b d =>
    simp [emitted, pushedValues, Wire.replay_pushEvents, Wire.replay_nibbleEvents, Wire.latchedAll_idle, h]
  | ledon => simp [emitted, pushedValues, Wire.replay_pushEvents, h]
  | ledoff => simp [emitted, pushedValues, Wire.replay_pushEvents, h]
  | fidle => simp [emitted, pushedValues, Wire.replay_pushEvents, h]
  | delay u c => rfl

theorem execState_wire_of_idle (i : Instr) (s : State) (h : s.wire.Idle) :
    (execState i s).wire = s.wire.latchedAll s.pm (pushedValues s.pm s.shadow i) := by
  rw [execState_wire, replay_emitted _ _ _ _ h]

/-- The last value pushed is the shadow the operation leaves (R23, R59). -/
theorem pushedValues_getLast? (pm : PinMap) (x : Byte) (i : Instr) (h : pushes i = true) :
    (pushedValues pm x i).getLast? = some (leftShadow pm x i) := by
  cases i with
  | push | wnib n | pulse | ledon | ledoff | fidle => rfl
  | send b d => simp [pushedValues, leftShadow, nibbleValues, pulseValues, nibbleShadow]
  | setbit idx v | delay u c => cases h

/-- After some pushes both stages of the register hold the last value (R52). -/
theorem latchedAll_register {pm : PinMap} {w : Wire} {vs : List Byte} {v : Byte} (h : vs.getLast? = some v) :
    (w.latchedAll pm vs).sr = v ∧ (w.latchedAll pm vs).q = v := by
  obtain ⟨us, rfl⟩ := List.getLast?_eq_some_iff.1 h
  simp

/-- Settles O22: the register holds the last value pushed, which is the shadow; SETBIT and DELAY push nothing. -/
theorem outputsEqualTheShadowAfterAPush : Obligations.OutputsEqualTheShadowAfterAPush := by
  unfold Obligations.OutputsEqualTheShadowAfterAPush
  intro i s h
  refine ⟨_, exec_eq i s, fun pushing => ?_, fun silent => ?_⟩
  · obtain ⟨sr, q⟩ := latchedAll_register (pm := s.pm) (w := s.wire) (pushedValues_getLast? _ _ i pushing)
    rw [execState_wire_of_idle i s h, execState_shadow, execState_pushed, pushing]
    exact ⟨sr, q, rfl⟩
  · cases i with
    | setbit idx v | delay u c => exact ⟨rfl, rfl⟩
    | _ => cases silent

/-! The invariants (R28, R31, R32). -/

theorem respOf_le_one (i : Instr) : respOf i = 0 ∨ respOf i = 1 := by
  cases i with
  | send b d => cases d <;> simp [respOf, respSend]
  | _ => exact .inl rfl

/-- Every operation keeps the invariants: it pushes on idle lines, and both stages of the register then hold one
value. -/
theorem execState_inv (i : Instr) {s : State} (inv : s.Inv) : (execState i s).Inv := by
  obtain ⟨idle, agree, -⟩ := inv
  refine ⟨?_, fun pushed => ?_, ?_⟩
  · rw [execState_wire_of_idle i s idle]
    exact Wire.latchedAll_idle _ _ _ idle
  · obtain ⟨t, runs, shows, keeps⟩ := outputsEqualTheShadowAfterAPush i s idle
    obtain rfl : execState i s = t := by simpa [exec_eq] using runs
    cases pushing : pushes i with
    | true =>
      obtain ⟨sr, q, -⟩ := shows pushing
      rw [sr, q]
    | false =>
      obtain ⟨wire, mark⟩ := keeps pushing
      rw [wire, agree (mark ▸ pushed)]
  · rw [execState_resp]
    exact respOf_le_one i

/-- Settles O13: recording a fault leaves the fields the invariants speak of, and every operation keeps them. -/
theorem stepKeepsInvariants : Obligations.StepKeepsInvariants := by
  unfold Obligations.StepKeepsInvariants
  intro s t inv next
  obtain ⟨-, ⟨w, rfl⟩ | ⟨i, rfl⟩⟩ := next_cases next
  · exact ⟨inv.idle, inv.latched, inv.resp⟩
  · exact execState_inv i inv

/-- Lines at 0, nothing pushed and `RESP` 0 meet the invariants. -/
theorem inv_of_unpushed {s : State} (idle : s.wire.Idle) (unpushed : s.pushed = false) (resp : s.resp = 0) : s.Inv :=
  ⟨idle, fun pushed => by simp [unpushed] at pushed, .inl resp⟩

/-- Settles O14: every construction starts with idle lines and nothing pushed. -/
theorem invariantsHoldAtReset : Obligations.InvariantsHoldAtReset := by
  unfold Obligations.InvariantsHoldAtReset
  exact ⟨fun pm shadow sr q prog => inv_of_unpushed ⟨rfl, rfl, rfl⟩ rfl rfl,
    inv_of_unpushed ⟨rfl, rfl, rfl⟩ rfl rfl, fun s pm shadow prog => inv_of_unpushed ⟨rfl, rfl, rfl⟩ rfl rfl⟩

/-- Settles O16: the fields of the constructed state, read off one by one. -/
theorem powerUpLeavesTheTableOfReset : Obligations.PowerUpLeavesTheTableOfReset := by
  unfold Obligations.PowerUpLeavesTheTableOfReset
  refine ⟨fun pm shadow sr q prog => ?_, rfl, rfl, rfl⟩
  simp [State.construct, Wire.powerUp, State.initialised]

/-- Settles O17: the state constructed on the register of the old one, its fields read off one by one. -/
theorem reconstructionKeepsTheRegister : Obligations.ReconstructionKeepsTheRegister := by
  unfold Obligations.ReconstructionKeepsTheRegister
  intro s pm shadow prog
  simp [State.reconstruct, State.construct, Wire.powerUp, Wire.Idle, State.initialised]

/-! The whole state after an operation, from the fields above. -/

/-- On idle lines an operation is its new shadow, its pushes, its events and its retirement; nothing else changes. -/
theorem exec_of_idle (i : Instr) (s : State) (h : s.wire.Idle) :
    exec i s = .next { s with
      shadow := leftShadow s.pm s.shadow i, wire := s.wire.latchedAll s.pm (pushedValues s.pm s.shadow i),
      trace := s.trace ++ emitted s.pm s.shadow i, pushed := pushes i || s.pushed,
      resp := respOf i, pc := s.pc + 1 } := by
  obtain ⟨-, pm, prog, mark, ds, href⟩ := exec_follows i s
  rw [exec_eq]
  congr 1
  ext1
  case shadow => exact execState_shadow i s
  case wire => exact execState_wire_of_idle i s h
  case trace => exact execState_trace i s
  case pushed => exact execState_pushed i s
  case pc => exact execState_pc i s
  case resp => exact execState_resp i s
  all_goals assumption

/-- Settles O20: one bit of the shadow is written, and the wires react to no event. -/
theorem setbitWritesOneShadowBit : Obligations.SetbitWritesOneShadowBit := by
  unfold Obligations.SetbitWritesOneShadowBit
  intro idx v s
  exact ⟨setBit s.shadow idx v, rfl, fun j => bitAt_setBit _ _ _ _⟩

theorem nibbleEvents_eq_strobe (pm : PinMap) (x : Byte) (n : Nibble) :
    nibbleEvents pm x n = shiftOut (setNibble pm x n) ++
      strobe (setBit (setNibble pm x n) pm.en false) (setBit (setNibble pm x n) pm.en true) := by
  rw [nibbleEvents, pulseEvents_eq_strobe, pushEvents_eq_shiftOut]

theorem setNibble_lowNibble (pm : PinMap) (x n : Byte) :
    setNibble pm x (lowNibble n) =
      withNibble pm x (n.getLsbD 0) (n.getLsbD 1) (n.getLsbD 2) (n.getLsbD 3) := by
  simp [setNibble, withNibble, lowNibble]

theorem setNibble_highNibble (pm : PinMap) (x b : Byte) :
    setNibble pm x (highNibble b) =
      withNibble pm x (b.getLsbD 4) (b.getLsbD 5) (b.getLsbD 6) (b.getLsbD 7) := by
  simp [setNibble, withNibble, highNibble]

/-- Settles O24: WNIB is one nibble write of the low four bits (`exec_of_idle`), its events those R120 lists. -/
theorem wnibWritesAndStrobesTheNibble : Obligations.WnibWritesAndStrobesTheNibble := by
  unfold Obligations.WnibWritesAndStrobesTheNibble
  intro n s h
  rw [exec_of_idle _ s h, ← setNibble_lowNibble]
  simp only [emitted, nibbleEvents_eq_strobe, List.append_assoc]
  rfl

/-- Settles O25: FIDLE pushes twice (`exec_of_idle`), and the events of a push are those R100 lists. -/
theorem fidleForcesRsAndEnable : Obligations.FidleForcesRsAndEnable := by
  unfold Obligations.FidleForcesRsAndEnable
  intro s h
  rw [exec_of_idle _ s h]
  simp only [emitted, pushEvents_eq_shiftOut, List.append_assoc]
  rfl

/-- Settles O30: SEND is a push and two nibble writes, the second on the shadow the first one leaves. -/
theorem sendEncodesTheByte : Obligations.SendEncodesTheByte := by
  unfold Obligations.SendEncodesTheByte
  intro b d s h
  simp only [exec_of_idle _ s h, ← setNibble_lowNibble, ← setNibble_highNibble, emitted, nibbleEvents_eq_strobe,
    pushEvents_eq_shiftOut, List.append_assoc]
  rfl

/-- Settles O36: both operations write the LED bit and push once. -/
theorem ledToggleChangesOneBit : Obligations.LedToggleChangesOneBit := by
  unfold Obligations.LedToggleChangesOneBit
  intro s
  have kept (j : BitIndex) (other : j ≠ s.pm.led) :
      bitAt (execState .ledon s).shadow j = bitAt s.shadow j ∧
        bitAt (execState .ledoff (execState .ledon s)).shadow j = bitAt s.shadow j := by
    simp [execState_ledon, execState_ledoff, other]
  refine ⟨_, _, _, _, exec_eq _ s, exec_eq _ _, bitAt_setBit_self _ _ _, bitAt_setBit_self _ _ _, kept,
    fun distinct j role => ?_, execState_trace _ s, execState_trace _ _, latchRises_pushEvents _,
    latchRises_pushEvents _⟩
  obtain ⟨-, -, -, ledApart, -⟩ := distinct_roles distinct
  exact (kept j fun same => ledApart (same ▸ role)).2

/-- Settles O37: one wait, which leaves the wires as they were. -/
theorem delayRecordsOneWait : Obligations.DelayRecordsOneWait := by
  unfold Obligations.DelayRecordsOneWait
  exact fun c s => ⟨rfl, rfl⟩

@[simp] theorem latchRises_nil : latchRises [] = 0 := rfl

@[simp] theorem latchRises_wait (ns : Nat) (evs : List Event) : latchRises (.wait ns :: evs) = latchRises evs := by
  simp [latchRises]

@[simp] theorem latchRises_pulseEvents (pm : PinMap) (x : Byte) : latchRises (pulseEvents pm x) = 3 := by
  simp [pulseEvents]

@[simp] theorem latchRises_nibbleEvents (pm : PinMap) (x : Byte) (n : Nibble) :
    latchRises (nibbleEvents pm x n) = 4 := by
  simp [nibbleEvents]

/-- The events of an operation cost what its row of R290 says. -/
theorem emitted_cost (pm : PinMap) (x : Byte) (i : Instr) :
    ((emitted pm x i).length, latchRises (emitted pm x i), waitSum (emitted pm x i)) = cost i := by
  cases i with
  | delay u c => cases u <;> simp [emitted, cost, Event.ns, delayNs]
  | setbit idx v => rfl
  | push | wnib n | pulse | send b d | ledon | ledoff | fidle =>
    simp only [emitted, List.length_append, pushEvents_length, pulseEvents_length, nibbleEvents_length,
      latchRises_append, latchRises_pushEvents, latchRises_pulseEvents, latchRises_nibbleEvents, waitSum_append,
      waitSum_pushEvents, waitSum_pulseEvents, waitSum_nibbleEvents, cost]

/-- Settles O38: the events are the emitted ones, and these cost the row. -/
theorem everyOperationCostsItsTableRow : Obligations.EveryOperationCostsItsTableRow := by
  unfold Obligations.EveryOperationCostsItsTableRow
  intro i s
  exact ⟨_, _, exec_eq i s, execState_trace i s, emitted_cost _ _ i⟩

/-- Settles O39: `RESP` is the argument of the retirement, which SEND alone chooses. -/
theorem respReportsWritesOnly : Obligations.RespReportsWritesOnly := by
  unfold Obligations.RespReportsWritesOnly
  intro i s
  refine ⟨_, exec_eq i s, ?_, fun noData => ?_⟩ <;> rw [execState_resp]
  · rintro ⟨b, rfl⟩
    rfl
  · cases i with
    | send b d =>
      cases d with
      | false => rfl
      | true => exact absurd rfl (noData b)
    | _ => rfl

end Sys2Proof.Pushes

/-! The display observer: what a push records (R250), and from it the records of the enable pulse, the nibble write and
each operation (R121, R122, R124, R141). -/

namespace Sys2Proof.Observer

open Sys2Proof.Machine Sys2Proof.Claims Sys2Proof.Pushes

/-! One push. -/

theorem enFalls_iff (pm : PinMap) (qo qn : Byte) :
    enFalls pm qo qn = true ↔ bitAt qo pm.en = true ∧ bitAt qn pm.en = false := by
  simp [enFalls]

theorem enFalls_of_low (pm : PinMap) {qo : Byte} (qn : Byte) (low : bitAt qo pm.en = false) :
    enFalls pm qo qn = false := by
  simp [enFalls, low]

theorem enFalls_of_high (pm : PinMap) (qo : Byte) {qn : Byte} (high : bitAt qn pm.en = true) :
    enFalls pm qo qn = false := by
  simp [enFalls, high]

/-- The nibble on the data lines tells the four data bits apart (R250). -/
theorem dataNibble_eq_iff (pm : PinMap) (x y : Byte) :
    dataNibble pm x = dataNibble pm y ↔ ∀ j ∈ [pm.d0, pm.d1, pm.d2, pm.d3], bitAt x j = bitAt y j := by
  have bits : ∀ a b c d a' b' c' d' : Bool,
      BitVec.ofBool d ++ BitVec.ofBool c ++ BitVec.ofBool b ++ BitVec.ofBool a =
          BitVec.ofBool d' ++ BitVec.ofBool c' ++ BitVec.ofBool b' ++ BitVec.ofBool a' ↔
        a = a' ∧ b = b' ∧ c = c' ∧ d = d' := by decide
  simpa only [dataNibble, List.forall_mem_cons, List.not_mem_nil, false_imp_iff, implies_true, and_true] using
    bits _ _ _ _ _ _ _ _

theorem rsDataStable_iff (pm : PinMap) (qo qn : Byte) :
    rsDataStable pm qo qn = true ↔ ∀ j ∈ [pm.rs, pm.d0, pm.d1, pm.d2, pm.d3], bitAt qo j = bitAt qn j := by
  simp [rsDataStable, dataNibble_eq_iff]

theorem latched_nl_of_low (pm : PinMap) (w : Wire) (v : Byte) (low : bitAt w.q pm.en = false) :
    (w.latched pm v).nl = w.nl :=
  Wire.latched_nl_of_no_fall pm w v (enFalls_of_low pm v low)

theorem latched_nl_of_high (pm : PinMap) (w : Wire) {v : Byte} (high : bitAt v pm.en = true) :
    (w.latched pm v).nl = w.nl :=
  Wire.latched_nl_of_no_fall pm w v (enFalls_of_high pm w.q high)

/-- An enable fall appends the one record of R250, whichever of its two cases holds. -/
theorem latched_nl_of_enFalls (pm : PinMap) (w : Wire) (v : Byte) (high : bitAt w.q pm.en = true)
    (low : bitAt v pm.en = false) : (w.latched pm v).nl = w.nl ++ [fallRecord pm w.draws w.q v] := by
  have fall := (enFalls_iff pm w.q v).2 ⟨high, low⟩
  by_cases stable : rsDataStable pm w.q v = true
  · rw [Wire.latched_nl_of_fall pm w v fall stable, fallRecord, if_pos ((rsDataStable_iff _ _ _).1 stable)]
    rfl
  · rw [Wire.latched_nl_of_draw pm w v fall (by simpa using stable), fallRecord,
      if_neg (mt (rsDataStable_iff _ _ _).2 stable)]

/-- The counter of draws goes on exactly at a fall with RS or a data bit changing (R250, log 3). -/
theorem latched_draws (pm : PinMap) (w : Wire) (v : Byte) :
    (w.latched pm v).draws =
      if enFalls pm w.q v = true ∧ rsDataStable pm w.q v = false then w.draws + 1 else w.draws := by
  cases fall : enFalls pm w.q v <;> cases stable : rsDataStable pm w.q v <;>
    simp [Wire.latched, Wire.observe, fall, stable]

/-- Settles O52: each of the three operations pushes once, the shadow it leaves, and R250's cases are those of one
push. -/
theorem onePushRecordsItsEnableFall : Obligations.OnePushRecordsItsEnableFall := by
  unfold Obligations.OnePushRecordsItsEnableFall
  intro i s pushesOnce h
  have values : pushedValues s.pm s.shadow i = [leftShadow s.pm s.shadow i] := by
    simp only [List.mem_cons, List.not_mem_nil, or_false] at pushesOnce
    obtain rfl | rfl | rfl := pushesOnce <;> rfl
  have wire : (execState i s).wire = s.wire.latched s.pm (execState i s).shadow := by
    rw [execState_wire_of_idle i s h, values, execState_shadow]
    rfl
  refine ⟨_, exec_eq i s, fun noFall => ?_, fun high low => ?_⟩ <;> rw [wire]
  · have still : enFalls s.pm s.wire.q (execState i s).shadow = false := by
      simpa [← enFalls_iff] using noFall
    exact ⟨Wire.latched_nl_of_no_fall _ _ _ still, by simp [latched_draws, still]⟩
  · refine ⟨latched_nl_of_enFalls _ _ _ high low, ?_⟩
    have fall := (enFalls_iff s.pm _ _).2 ⟨high, low⟩
    rw [latched_draws, fall]
    simp only [← rsDataStable_iff]
    cases rsDataStable s.pm s.wire.q (execState i s).shadow <;> simp

/-- Settles O26: EN is high in the first value, so only the second push has a fall; RS falls with EN, also where both
roles share an index. -/
theorem fidleRecordIsADraw : Obligations.FidleRecordIsADraw := by
  unfold Obligations.FidleRecordIsADraw
  intro s h
  have high : bitAt (fidleUp s.pm s.shadow) s.pm.en = true := bitAt_setBit_self _ _ _
  have low : bitAt (fidleDown s.pm s.shadow) s.pm.en = false := bitAt_setBit_self _ _ _
  have rsHigh : bitAt (fidleUp s.pm s.shadow) s.pm.rs = true := by simp [fidleUp]
  have rsLow : bitAt (fidleDown s.pm s.shadow) s.pm.rs = false := by simp [fidleDown]
  have still : enFalls s.pm s.wire.q (fidleUp s.pm s.shadow) = false := enFalls_of_high _ _ high
  have fall : enFalls s.pm (s.wire.latched s.pm (fidleUp s.pm s.shadow)).q (fidleDown s.pm s.shadow) = true :=
    (enFalls_iff _ _ _).2 ⟨high, low⟩
  have unstable :
      rsDataStable s.pm (s.wire.latched s.pm (fidleUp s.pm s.shadow)).q (fidleDown s.pm s.shadow) = false := by
    simp [rsDataStable, rsHigh, rsLow]
  have first : (s.wire.latched s.pm (fidleUp s.pm s.shadow)).draws = s.wire.draws := by
    rw [latched_draws, still, if_neg (by simp)]
  have wire : (execState .fidle s).wire =
      (s.wire.latched s.pm (fidleUp s.pm s.shadow)).latched s.pm (fidleDown s.pm s.shadow) :=
    execState_wire_of_idle _ s h
  refine ⟨_, exec_eq _ s, ?_, ?_⟩ <;> rw [wire]
  · rw [latched_draws, if_pos ⟨fall, unstable⟩, first]
  · rw [Wire.latched_nl_of_draw _ _ _ fall unstable, first, Wire.latched_nl_of_no_fall _ _ _ still]

/-! The strobes, under a distinct map. -/

section Strobes

variable {pm : PinMap} (distinct : pm.Distinct) (w : Wire) (v : Byte) (n : Nibble)

include distinct

theorem bitAt_rs_setBit_en (x : Bool) : bitAt (setBit v pm.en x) pm.rs = bitAt v pm.rs :=
  bitAt_setBit_of_ne v x (distinct_roles distinct).1

theorem bitAt_en_setBit_rs (x : Bool) : bitAt (setBit v pm.rs x) pm.en = bitAt v pm.en :=
  bitAt_setBit_of_ne v x (distinct_roles distinct).1.symm

theorem rsDataStable_setBit_en (x : Bool) : rsDataStable pm v (setBit v pm.en x) = true := by
  simp [rsDataStable, bitAt_rs_setBit_en distinct, dataNibble_setBit_en distinct]

theorem rsDataStable_setBit_en_setBit_en (x y : Bool) :
    rsDataStable pm (setBit v pm.en x) (setBit v pm.en y) = true := by
  simp [rsDataStable, bitAt_rs_setBit_en distinct, dataNibble_setBit_en distinct]

/-- A push of the value on the outputs with EN lowered is a fall that shows RS and the data as they are (R250). -/
theorem latched_nl_of_lowered (shown : w.q = v) (high : bitAt v pm.en = true) :
    (w.latched pm (setBit v pm.en false)).nl = w.nl ++ [⟨bitAt v pm.rs, dataNibble pm v⟩] := by
  have fall : enFalls pm w.q (setBit v pm.en false) = true :=
    (enFalls_iff pm _ _).2 ⟨shown ▸ high, bitAt_setBit_self _ _ _⟩
  rw [Wire.latched_nl_of_fall _ _ _ fall (shown ▸ rsDataStable_setBit_en distinct v false),
    bitAt_rs_setBit_en distinct, dataNibble_setBit_en distinct]

/-- The enable pulse records RS and the data once, after what its first push records (R121, R122). -/
theorem latchedAll_pulseValues_nl :
    (w.latchedAll pm (pulseValues pm v)).nl =
      (w.latched pm (setBit v pm.en false)).nl ++ [⟨bitAt v pm.rs, dataNibble pm v⟩] := by
  have high : bitAt (setBit v pm.en true) pm.en = true := bitAt_setBit_self _ _ _
  have strobed := latched_nl_of_lowered distinct
    ((w.latched pm (setBit v pm.en false)).latched pm (setBit v pm.en true)) (setBit v pm.en true) rfl high
  rw [setBit_setBit, bitAt_rs_setBit_en distinct, dataNibble_setBit_en distinct,
    latched_nl_of_high _ _ high] at strobed
  exact strobed

omit distinct in
theorem latchedAll_nibbleValues_q : (w.latchedAll pm (nibbleValues pm v n)).q = nibbleShadow pm v n := rfl

omit distinct in
theorem bitAt_en_nibbleShadow : bitAt (nibbleShadow pm v n) pm.en = false := bitAt_setBit_self _ _ _

theorem bitAt_rs_nibbleShadow : bitAt (nibbleShadow pm v n) pm.rs = bitAt v pm.rs := by
  rw [nibbleShadow, bitAt_rs_setBit_en distinct, rs_setNibble distinct]

/-- With EN low in the shadow a nibble write records its nibble once, after what its first push records (R120). -/
theorem latchedAll_nibbleValues_nl_of_low (low : bitAt v pm.en = false) :
    (w.latchedAll pm (nibbleValues pm v n)).nl =
      (w.latched pm (setNibble pm v n)).nl ++ [⟨bitAt v pm.rs, n⟩] := by
  have pushedLow : bitAt (w.latched pm (setNibble pm v n)).q pm.en = false := (en_setNibble distinct v n).trans low
  rw [nibbleValues, Wire.latchedAll_cons, latchedAll_pulseValues_nl distinct, latched_nl_of_low _ _ _ pushedLow,
    rs_setNibble distinct, dataNibble_setNibble distinct]

/-- With EN high in the shadow the first push raises it, so the enable pulse starts with a fall and the nibble is
recorded twice (R120). -/
theorem latchedAll_nibbleValues_nl_of_high (high : bitAt v pm.en = true) :
    (w.latchedAll pm (nibbleValues pm v n)).nl = w.nl ++ [⟨bitAt v pm.rs, n⟩, ⟨bitAt v pm.rs, n⟩] := by
  have pushedHigh : bitAt (setNibble pm v n) pm.en = true := (en_setNibble distinct v n).trans high
  rw [nibbleValues, Wire.latchedAll_cons, latchedAll_pulseValues_nl distinct,
    latched_nl_of_lowered distinct _ (setNibble pm v n) rfl pushedHigh, latched_nl_of_high _ _ pushedHigh,
    rs_setNibble distinct, dataNibble_setNibble distinct, List.append_assoc]
  rfl

end Strobes

/-! The operations, under a distinct map: what the first push records, then the strobes. -/

section Operations

variable {s : State} (h : s.wire.Idle) (distinct : s.pm.Distinct)

include h distinct

theorem pulse_nl :
    (execState .pulse s).wire.nl = (s.wire.latched s.pm (setBit s.shadow s.pm.en false)).nl ++
      [⟨bitAt s.shadow s.pm.rs, dataNibble s.pm s.shadow⟩] := by
  rw [execState_wire_of_idle _ s h]
  exact latchedAll_pulseValues_nl distinct s.wire s.shadow

theorem wnib_nl_of_low (n : Byte) (low : bitAt s.shadow s.pm.en = false) :
    (execState (.wnib n) s).wire.nl = (s.wire.latched s.pm (setNibble s.pm s.shadow (lowNibble n))).nl ++
      [⟨bitAt s.shadow s.pm.rs, lowNibble n⟩] := by
  rw [execState_wire_of_idle _ s h]
  exact latchedAll_nibbleValues_nl_of_low distinct s.wire s.shadow (lowNibble n) low

theorem wnib_nl_of_high (n : Byte) (high : bitAt s.shadow s.pm.en = true) :
    (execState (.wnib n) s).wire.nl =
      s.wire.nl ++ [⟨bitAt s.shadow s.pm.rs, lowNibble n⟩, ⟨bitAt s.shadow s.pm.rs, lowNibble n⟩] := by
  rw [execState_wire_of_idle _ s h]
  exact latchedAll_nibbleValues_nl_of_high distinct s.wire s.shadow (lowNibble n) high

/-- The second nibble of SEND starts with EN low in the shadow and on the outputs, so it adds its own record only. -/
theorem send_nl (b : Byte) (d : Bool) :
    (execState (.send b d) s).wire.nl =
      ((s.wire.latched s.pm (setBit s.shadow s.pm.rs d)).latchedAll s.pm
        (nibbleValues s.pm (setBit s.shadow s.pm.rs d) (highNibble b))).nl ++ [⟨d, lowNibble b⟩] := by
  have shown := latchedAll_nibbleValues_q (pm := s.pm) (s.wire.latched s.pm (setBit s.shadow s.pm.rs d))
    (setBit s.shadow s.pm.rs d) (highNibble b)
  have low := bitAt_en_nibbleShadow (pm := s.pm) (setBit s.shadow s.pm.rs d) (highNibble b)
  rw [execState_wire_of_idle _ s h, pushedValues, Wire.latchedAll_cons, latchedAll_append,
    latchedAll_nibbleValues_nl_of_low distinct _ _ _ low, latched_nl_of_low _ _ _ (shown ▸ low),
    bitAt_rs_nibbleShadow distinct, bitAt_setBit_self]

theorem send_nl_of_low (b : Byte) (d : Bool) (low : bitAt s.shadow s.pm.en = false) :
    (execState (.send b d) s).wire.nl = (s.wire.latched s.pm (setBit s.shadow s.pm.rs d)).nl ++
      [⟨d, highNibble b⟩, ⟨d, lowNibble b⟩] := by
  have rsLow : bitAt (setBit s.shadow s.pm.rs d) s.pm.en = false := (bitAt_en_setBit_rs distinct _ d).trans low
  have shownLow : bitAt (s.wire.latched s.pm (setBit s.shadow s.pm.rs d)).q s.pm.en = false := rsLow
  rw [send_nl h distinct, latchedAll_nibbleValues_nl_of_low distinct _ _ _ rsLow, latched_nl_of_low _ _ _ shownLow,
    bitAt_setBit_self, List.append_assoc]
  rfl

theorem send_nl_of_high (b : Byte) (d : Bool) (high : bitAt s.shadow s.pm.en = true) :
    (execState (.send b d) s).wire.nl = s.wire.nl ++ [⟨d, highNibble b⟩, ⟨d, highNibble b⟩, ⟨d, lowNibble b⟩] := by
  have rsHigh : bitAt (setBit s.shadow s.pm.rs d) s.pm.en = true := (bitAt_en_setBit_rs distinct _ d).trans high
  rw [send_nl h distinct, latchedAll_nibbleValues_nl_of_high distinct _ _ _ rsHigh, latched_nl_of_high _ _ rsHigh,
    bitAt_setBit_self, List.append_assoc]
  rfl

end Operations

/-- Settles O27: with EN low on the outputs the first push records nothing. -/
theorem pulseRecordsOneNibble : Obligations.PulseRecordsOneNibble := by
  unfold Obligations.PulseRecordsOneNibble
  intro s h distinct outputLow
  exact ⟨_, exec_eq _ s, by rw [pulse_nl h distinct, latched_nl_of_low _ _ _ outputLow]⟩

/-- Settles O28: with EN low on the outputs the first push records nothing. -/
theorem wnibRecordsItsNibble : Obligations.WnibRecordsItsNibble := by
  unfold Obligations.WnibRecordsItsNibble
  intro n s h distinct outputLow
  refine ⟨_, exec_eq _ s, fun low => ?_, fun high => wnib_nl_of_high h distinct n high⟩
  rw [wnib_nl_of_low h distinct n low, latched_nl_of_low _ _ _ outputLow]
  rfl

/-- The two nibbles put together are the byte (R141). -/
theorem highNibble_append_lowNibble (b : Byte) : highNibble b ++ lowNibble b = b := by
  rw [highNibble, lowNibble, BitVec.extractLsb'_append_extractLsb'_eq_extractLsb' (rfl : 4 = 0 + 4),
    BitVec.extractLsb'_eq_self]

/-- Settles O31: the two nibbles are the byte, and with EN low on the outputs the first push records nothing. -/
theorem sendRecordsHighThenLowNibble : Obligations.SendRecordsHighThenLowNibble := by
  unfold Obligations.SendRecordsHighThenLowNibble
  intro b d s h distinct outputLow
  refine ⟨_, highNibble b, lowNibble b, exec_eq _ s, highNibble_append_lowNibble b, fun low => ?_,
    fun high => send_nl_of_high h distinct b d high⟩
  rw [send_nl_of_low h distinct b d low, latched_nl_of_low _ _ _ outputLow]

/-- Settles O53: where the first push lowers EN it records the fall at the entry. -/
theorem strobesRecordTheFallAtEntry : Obligations.StrobesRecordTheFallAtEntry := by
  unfold Obligations.StrobesRecordTheFallAtEntry
  intro s h distinct outputHigh
  refine ⟨⟨_, exec_eq _ s, ?_⟩,
    fun n => ⟨_, exec_eq _ s, fun low => ?_, fun high => wnib_nl_of_high h distinct n high⟩,
    fun b d => ⟨_, exec_eq _ s, fun low => ?_, fun high => send_nl_of_high h distinct b d high⟩⟩
  · rw [pulse_nl h distinct, latched_nl_of_enFalls _ _ _ outputHigh (bitAt_setBit_self _ _ _), List.append_assoc]
    rfl
  · have firstLow := (en_setNibble distinct s.shadow (lowNibble n)).trans low
    rw [wnib_nl_of_low h distinct n low, latched_nl_of_enFalls _ _ _ outputHigh firstLow, setNibble_lowNibble,
      List.append_assoc]
    rfl
  · have firstLow := (bitAt_en_setBit_rs distinct s.shadow d).trans low
    rw [send_nl_of_low h distinct b d low, latched_nl_of_enFalls _ _ _ outputHigh firstLow, List.append_assoc]
    rfl

end Sys2Proof.Observer

/-! Inside a push: which events move the outputs, and when (R51, R53, R100). -/

namespace Sys2Proof.LatchRise

open Sys2Proof.Machine Sys2Proof.Claims Sys2Proof.SerialEncoder

/-- Only a write of 1 to the latch line moves the outputs and the observer (R51, R250). -/
theorem react_outputs (pm : PinMap) (w : Wire) {e : Event} (noRise : e ≠ .setLat true) :
    (w.react pm e).q = w.q ∧ (w.react pm e).nl = w.nl := by
  cases e with
  | setLat v =>
    cases v with
    | true => exact absurd rfl noRise
    | false => exact ⟨rfl, rfl⟩
  | setData v | setClk v | wait ns => exact ⟨rfl, rfl⟩

theorem replay_outputs (pm : PinMap) (w : Wire) (evs : List Event) (noRise : .setLat true ∉ evs) :
    (w.replay pm evs).q = w.q ∧ (w.replay pm evs).nl = w.nl := by
  induction evs generalizing w with
  | nil => exact ⟨rfl, rfl⟩
  | cons e evs ih =>
    rw [List.mem_cons, not_or] at noRise
    obtain ⟨q, nl⟩ := react_outputs pm w (Ne.symm noRise.1)
    obtain ⟨q', nl'⟩ := ih (w.react pm e) noRise.2
    exact ⟨q'.trans q, nl'.trans nl⟩

/-- Only a write of 1 to the clock line moves the shift stage (R50). -/
theorem react_sr (pm : PinMap) (w : Wire) {e : Event} (noClock : e ≠ .setClk true) : (w.react pm e).sr = w.sr := by
  cases e with
  | setClk v =>
    cases v with
    | true => exact absurd rfl noClock
    | false => rfl
  | setLat v =>
    simp only [Wire.react]
    split <;> simp
  | setData v | wait ns => rfl

theorem replay_sr (pm : PinMap) (w : Wire) (evs : List Event) (noClock : .setClk true ∉ evs) :
    (w.replay pm evs).sr = w.sr := by
  induction evs generalizing w with
  | nil => rfl
  | cons e evs ih =>
    rw [List.mem_cons, not_or] at noClock
    exact (ih _ noClock.2).trans (react_sr pm w (Ne.symm noClock.1))

/-- The latch line rises at no event before the 49th (R100). -/
theorem noRise_before (v : Byte) {k : Nat} (early : k ≤ 48) : .setLat true ∉ (shiftOut v).take k := by
  have first : .setLat true ∉ (shiftOut v).take 48 := by simp [shiftOut]
  exact fun rise => first ((List.take_subset_take_left _ early) rise)

/-- After the 49th event neither the latch nor the clock line rises (R100). -/
theorem noRise_after (v : Byte) {k : Nat} (late : 49 ≤ k) :
    .setLat true ∉ (shiftOut v).drop k ∧ .setClk true ∉ (shiftOut v).drop k := by
  have last : .setLat true ∉ (shiftOut v).drop 49 ∧ .setClk true ∉ (shiftOut v).drop 49 := by simp [shiftOut]
  have later := List.drop_subset_drop_left (shiftOut v) late
  exact ⟨fun rise => last.1 (later rise), fun rise => last.2 (later rise)⟩

/-- Settles O19: before the 49th event no latch rise; from it on the register and the log are those of the whole push,
since the events that follow move neither. -/
theorem outputsHoldUntilTheLatchRise : Obligations.OutputsHoldUntilTheLatchRise := by
  unfold Obligations.OutputsHoldUntilTheLatchRise
  intro pm w v k h
  refine ⟨fun early => replay_outputs pm w _ (noRise_before v early), fun late => ?_⟩
  obtain ⟨noLatch, noClock⟩ := noRise_after v late
  have whole : (w.replay pm ((shiftOut v).take k)).replay pm ((shiftOut v).drop k) = w.latched pm v := by
    rw [← Wire.replay_append, List.take_append_drop, ← pushEvents_eq_shiftOut, Wire.replay_pushEvents pm w v h]
  obtain ⟨q, nl⟩ := replay_outputs pm (w.replay pm ((shiftOut v).take k)) _ noLatch
  have sr := replay_sr pm (w.replay pm ((shiftOut v).take k)) _ noClock
  rw [whole] at q nl sr
  exact ⟨q.symm, sr.symm, nl.symm⟩

end Sys2Proof.LatchRise

/-! The times of the strobes (R121, R122, R142, R282, R283). -/

namespace Sys2Proof.Strobes

open Sys2Proof.Machine Sys2Proof.Claims Sys2Proof.Pushes Sys2Proof.Observer

/-- The latch rises of an enable pulse that starts at `t` with the outputs at `q` and the shadow at `v` (R122). -/
def pulseRises (pm : PinMap) (t : Nat) (q v : Byte) : List LatchRise :=
  [⟨t + 24000, q, setBit v pm.en false⟩, ⟨t + 51000, setBit v pm.en false, setBit v pm.en true⟩,
    ⟨t + 78000, setBit v pm.en true, setBit v pm.en false⟩]

/-- The latch rises of a nibble write: the data bits, then the enable pulse (R120). -/
def nibbleRises (pm : PinMap) (t : Nat) (q v : Byte) (n : Nibble) : List LatchRise :=
  ⟨t + 24000, q, setNibble pm v n⟩ :: pulseRises pm (t + 26000) (setNibble pm v n) (setNibble pm v n)

/-- The latch rises of SEND: RS, then the two nibbles (R140, R142). -/
def sendRises (pm : PinMap) (q x b : Byte) (d : Bool) : List LatchRise :=
  ⟨24000, q, setBit x pm.rs d⟩ ::
    (nibbleRises pm 26000 (setBit x pm.rs d) (setBit x pm.rs d) (highNibble b) ++
      nibbleRises pm 182000 (nibbleShadow pm (setBit x pm.rs d) (highNibble b))
        (nibbleShadow pm (setBit x pm.rs d) (highNibble b)) (lowNibble b))

section Rises

variable (pm : PinMap) {w : Wire} (h : w.Idle) (t : Nat) (x : Byte)

include h

theorem latchRisesFrom_pulse : latchRisesFrom pm w t (pulseEvents pm x) = pulseRises pm t w.q x :=
  latchRisesFrom_pulseEvents pm w t x h

theorem latchRisesFrom_nibble (n : Nibble) :
    latchRisesFrom pm w t (nibbleEvents pm x n) = nibbleRises pm t w.q x n := by
  rw [latchRisesFrom_nibbleEvents pm w t x n h, latchRisesFrom_pulse pm (Wire.latched_idle pm w _), Wire.latched_q,
    nibbleRises]

theorem latchRisesFrom_send (b : Byte) (d : Bool) :
    latchRisesFrom pm w 0 (emitted pm x (.send b d)) = sendRises pm w.q x b d := by
  have afterRs : (w.latched pm (setBit x pm.rs d)).Idle := Wire.latched_idle _ _ _
  have afterHigh := Wire.latchedAll_idle pm _ (nibbleValues pm (setBit x pm.rs d) (highNibble b)) afterRs
  rw [emitted, List.append_assoc, latchRisesFrom_append, latchRisesFrom_append, latchRisesFrom_pushEvents _ _ _ _ h,
    Wire.replay_pushEvents _ _ _ h, latchRisesFrom_nibble pm afterRs, Wire.replay_nibbleEvents _ _ _ _ afterRs,
    latchRisesFrom_nibble pm afterHigh, waitSum_pushEvents, waitSum_nibbleEvents]
  rfl

end Rises

section Levels

variable {pm : PinMap} (distinct : pm.Distinct) (t : Nat) (q v : Byte) (n : Nibble)

include distinct

/-- With EN low in the shadow the enable output is high from the third to the fourth rise of a nibble write only. -/
theorem nibbleRises_enable (low : bitAt v pm.en = false) :
    (nibbleRises pm t q v n).map (fun l => bitAt l.qn pm.en) = [false, false, true, false] := by
  simp [nibbleRises, pulseRises, en_setNibble distinct, low]

theorem nibbleRises_rs : ∀ l ∈ nibbleRises pm t q v n, bitAt l.qn pm.rs = bitAt v pm.rs := by
  simp [nibbleRises, pulseRises, bitAt_rs_setBit_en distinct, rs_setNibble distinct, -bitAt_setBit]

theorem nibbleRises_data :
    (nibbleRises pm t q v n).map (fun l => dataNibble pm l.qn) = List.replicate 4 n := by
  simp [nibbleRises, pulseRises, dataNibble_setBit_en distinct, dataNibble_setNibble distinct, List.replicate]

end Levels

/-- Settles O32: the latch rises of SEND are those of RS and of two nibbles, the second one with EN low again. -/
theorem sendSettlesBeforeEnableRises : Obligations.SendSettlesBeforeEnableRises := by
  unfold Obligations.SendSettlesBeforeEnableRises
  intro b d s h
  refine ⟨_, emitted s.pm s.shadow (.send b d), exec_eq _ s, execState_trace _ s, ?_⟩
  rw [latchRisesFrom_send s.pm h]
  refine ⟨rfl, fun distinct shadowLow _ => ⟨?_, ?_, ?_⟩⟩
  · have rsLow := (bitAt_en_setBit_rs distinct s.shadow d).trans shadowLow
    rw [sendRises, List.map_cons, List.map_append, nibbleRises_enable distinct _ _ _ _ rsLow,
      nibbleRises_enable distinct _ _ _ _ (bitAt_en_nibbleShadow _ _), rsLow]
    rfl
  · rw [sendRises, List.forall_mem_cons, List.forall_mem_append]
    refine ⟨bitAt_setBit_self _ _ _, fun l hl => ?_, fun l hl => ?_⟩
    · rw [nibbleRises_rs distinct _ _ _ _ l hl, bitAt_setBit_self]
    · rw [nibbleRises_rs distinct _ _ _ _ l hl, bitAt_rs_nibbleShadow distinct, bitAt_setBit_self]
  · rw [sendRises, List.map_cons, List.map_append, nibbleRises_data distinct, nibbleRises_data distinct,
      dataNibble_setBit_rs distinct]
    rfl

/-! T1 and T2: a latch rise with EN low before and after it counts for neither, and an enable pulse is held. -/

section Timing

variable {pm : PinMap} (fell : Option Nat) (t : Nat) {q v : Byte} (n : Nibble) (ls : List LatchRise)

@[simp] theorem enableHeld_nil : enableHeld pm none [] = true := rfl

@[simp] theorem settleKept_nil : settleKept pm fell [] = true := by rw [settleKept]

theorem enableHeld_cons_of_low (vLow : bitAt v pm.en = false) :
    enableHeld pm none (⟨t, q, v⟩ :: ls) = enableHeld pm none ls := by
  simp [enableHeld, enRises, vLow]

theorem settleKept_cons_of_low (qLow : bitAt q pm.en = false) (vLow : bitAt v pm.en = false) :
    settleKept pm fell (⟨t, q, v⟩ :: ls) = settleKept pm fell ls := by
  simp [settleKept, enFalls, enRises, qLow, vLow]

/-- An enable pulse keeps RS and the data and is wider than `T_EN_MIN` (T1, R283). -/
theorem enableHeld_pulseRises (distinct : pm.Distinct) :
    enableHeld pm none (pulseRises pm t q v ++ ls) = enableHeld pm none ls := by
  have stable := rsDataStable_setBit_en_setBit_en distinct v
  have width : t + 51000 + Config.tEnMin ≤ t + 78000 := by rw [Config.tEnMin]; omega
  simp [pulseRises, enableHeld, enRises, enFalls, stable, width]

/-- An enable pulse asks for the settle time before its rise and leaves its own fall (T2, R282). -/
theorem settleKept_pulseRises (qLow : bitAt q pm.en = false) :
    settleKept pm fell (pulseRises pm t q v ++ ls) =
      (settledSince fell (t + 51000) && settleKept pm (some (t + 78000)) ls) := by
  simp [pulseRises, settleKept, enRises, enFalls, qLow]

theorem enableHeld_nibbleRises (distinct : pm.Distinct) (vLow : bitAt v pm.en = false) :
    enableHeld pm none (nibbleRises pm t q v n ++ ls) = enableHeld pm none ls := by
  have dataLow := (en_setNibble distinct v n).trans vLow
  rw [nibbleRises, List.cons_append, enableHeld_cons_of_low _ _ dataLow,
    enableHeld_pulseRises _ _ distinct]

theorem settleKept_nibbleRises (distinct : pm.Distinct) (qLow : bitAt q pm.en = false)
    (vLow : bitAt v pm.en = false) :
    settleKept pm fell (nibbleRises pm t q v n ++ ls) =
      (settledSince fell (t + 77000) && settleKept pm (some (t + 104000)) ls) := by
  have dataLow := (en_setNibble distinct v n).trans vLow
  have rise : t + 26000 + 51000 = t + 77000 := Nat.add_assoc _ _ _
  have fall : t + 26000 + 78000 = t + 104000 := Nat.add_assoc _ _ _
  have pulse := settleKept_pulseRises fell (t + 26000) (v := setNibble pm v n) ls dataLow
  rw [rise, fall] at pulse
  exact (settleKept_cons_of_low fell _ _ qLow dataLow).trans pulse

end Timing

/-- The latch rises of an operation meet T1 and T2 and the last settle time. -/
structure MeetsTiming (pm : PinMap) (rises : List LatchRise) (total : Nat) : Prop where
  held : enableHeld pm none rises = true
  settled : settleKept pm none rises = true
  ends : ∀ l ∈ rises, l.at_ns + Config.tSettle ≤ total

section Operations

variable {pm : PinMap} (distinct : pm.Distinct) {q x : Byte} (qLow : bitAt q pm.en = false)
  (xLow : bitAt x pm.en = false)

include distinct qLow

theorem pulseRises_meetTiming : MeetsTiming pm (pulseRises pm 0 q x) 130000 where
  held := by simpa using enableHeld_pulseRises (q := q) (v := x) 0 [] distinct
  settled := by simpa using settleKept_pulseRises (v := x) none 0 [] qLow
  ends := by simp [pulseRises, Config.tSettle]

include xLow

theorem nibbleRises_meetTiming (n : Nibble) : MeetsTiming pm (nibbleRises pm 0 q x n) 156000 where
  held := by simpa using enableHeld_nibbleRises (q := q) 0 n [] distinct xLow
  settled := by simpa using settleKept_nibbleRises none 0 n [] distinct qLow xLow
  ends := by simp [nibbleRises, pulseRises, Config.tSettle]

/-- The second nibble of SEND rises 129 µs after the fall of the first (R142, R282). -/
theorem sendRises_meetTiming (b : Byte) (d : Bool) : MeetsTiming pm (sendRises pm q x b d) 338000 := by
  have rsLow := (bitAt_en_setBit_rs distinct x d).trans xLow
  have highLow := bitAt_en_nibbleShadow (pm := pm) (setBit x pm.rs d) (highNibble b)
  refine ⟨?_, ?_, ?_⟩
  · rw [sendRises, enableHeld_cons_of_low _ _ rsLow, enableHeld_nibbleRises _ _ _ distinct rsLow]
    simpa using enableHeld_nibbleRises 182000 (lowNibble b) [] distinct highLow
  · rw [sendRises, settleKept_cons_of_low _ _ _ qLow rsLow, settleKept_nibbleRises _ _ _ _ distinct rsLow rsLow,
      settledSince_none, Bool.true_and]
    simpa [settledSince, Config.tSettle] using
      settleKept_nibbleRises (some 130000) 182000 (lowNibble b) [] distinct highLow highLow
  · simp [sendRises, nibbleRises, pulseRises, Config.tSettle]

end Operations

/-- Settles O33: each of the three operations has known latch rises, and its events the duration of its row. -/
theorem strobesMeetTheirTiming : Obligations.StrobesMeetTheirTiming := by
  unfold Obligations.StrobesMeetTheirTiming
  intro i s strobe h distinct shadowLow outputLow
  refine ⟨_, emitted s.pm s.shadow i, exec_eq i s, execState_trace i s, ?_⟩
  suffices timing : MeetsTiming s.pm (latchRisesFrom s.pm s.wire 0 (emitted s.pm s.shadow i))
      (waitSum (emitted s.pm s.shadow i)) from ⟨timing.held, timing.settled, timing.ends⟩
  have duration : waitSum (emitted s.pm s.shadow i) = (cost i).2.2 :=
    congrArg (·.2.2) (emitted_cost s.pm s.shadow i)
  rw [duration]
  obtain rfl | ⟨n, rfl⟩ | ⟨b, d, rfl⟩ := strobe
  · rw [emitted, latchRisesFrom_pulse s.pm h]
    exact pulseRises_meetTiming distinct outputLow
  · rw [emitted, latchRisesFrom_nibble s.pm h]
    exact nibbleRises_meetTiming distinct outputLow shadowLow (lowNibble n)
  · rw [latchRisesFrom_send s.pm h]
    exact sendRises_meetTiming distinct outputLow shadowLow b d

end Sys2Proof.Strobes

/-! The host layer (R180 to R191, R200 to R215, R243): what a call leaves alone, `begin`, and the calls that need it. -/

namespace Sys2Proof.HostLayer

open Sys2Proof.Machine Sys2Proof.Claims Sys2Proof.SendWord Sys2Proof.HostCalls Sys2Proof.Encoding

/-- A refused call sets the mark to its reason, and nothing else (R243, log 9). -/
theorem hostCall_of_refuses {cb : Config.CommandBytes} {op : HostOp} {s : State} {why : HostRefusal}
    (answer : hostAnswer cb op s.ds = .refuses why) : hostCall cb op s = { s with href := some why } := by
  rw [hostCall, answer]

/-- All that a host call can do: its words and `DS`, or the mark (R243). -/
theorem hostCall_cases (cb : Config.CommandBytes) (op : HostOp) (s : State) :
    (∃ (ops : List Instr) (ds : Option DisplayState),
      hostCall cb op s = { s with prog := s.prog ++ ops.map encode, ds := ds }) ∨
      ∃ why, hostCall cb op s = { s with href := some why } := by
  cases answer : hostAnswer cb op s.ds with
  | emits ops ds => exact .inl ⟨ops, ds, hostCall_of_emits answer⟩
  | refuses why => exact .inr ⟨why, hostCall_of_refuses answer⟩

/-- Settles O49: both outcomes of a call leave the block alone, and only the refusal touches the mark. -/
theorem hostCallsLeaveTheBlockAlone : Obligations.HostCallsLeaveTheBlockAlone := by
  unfold Obligations.HostCallsLeaveTheBlockAlone
  intro cb op s
  obtain ⟨ops, ds, call⟩ | ⟨why, call⟩ := hostCall_cases cb op s <;> rw [call]
  · exact ⟨rfl, rfl, rfl, rfl, rfl, rfl, rfl, rfl, List.prefix_append _ _, id, fun changed => absurd rfl changed⟩
  · exact ⟨rfl, rfl, rfl, rfl, rfl, rfl, rfl, rfl, List.prefix_rfl, fun _ => Option.some_ne_none why,
      fun _ => ⟨rfl, rfl⟩⟩

/-! The line count (R181). -/

theorem lineCountOf_eq_some_iff (lines : Byte) (l : LineCount) :
    lineCountOf lines = some l ↔ lines.toNat = l.count := by
  unfold lineCountOf
  split <;> cases l <;> simp_all [LineCount.count, LineCount.last]

theorem lineCountOf_eq_none_iff (lines : Byte) : lineCountOf lines = none ↔ lines.toNat = 0 ∨ 4 < lines.toNat := by
  unfold lineCountOf
  split <;> simp_all
  omega

theorem twoLineOf_eq (l : LineCount) : twoLineOf l = decide (1 < l.count) := by cases l <;> rfl

theorem fontOf_eq (l : LineCount) (dotSize : Byte) : fontOf l dotSize = decide (l.count = 1 ∧ dotSize ≠ 0) := by
  rw [Bool.eq_iff_iff]
  cases l <;> simp [fontOf, LineCount.count, LineCount.last]

/-- `begin` with a line count it takes emits the words of `beginOps` and sets `DS` (R180, R181). -/
theorem hostCall_begin (cb : Config.CommandBytes) (s : State) (cols dotSize : Byte) {lines : Byte} {l : LineCount}
    (taken : lineCountOf lines = some l) :
    hostCall cb (.begin cols lines dotSize) s = { s with
      prog := s.prog ++ (beginOps cb (displayAfterBegin l cols dotSize)).map encode,
      ds := some (displayAfterBegin l cols dotSize) } := by
  apply hostCall_of_emits
  simp only [hostAnswer, taken]

theorem exists_lineCount {lines : Byte} (atLeast : 1 ≤ lines.toNat) (atMost : lines.toNat ≤ 4) :
    ∃ l, lineCountOf lines = some l := by
  rw [← Option.ne_none_iff_exists', ne_eq, lineCountOf_eq_none_iff]
  omega

/-- Settles O40: the nine words before the first SEND are fixed, and the flags are those of the line count. -/
theorem beginEmitsItsFourteenWords : Obligations.BeginEmitsItsFourteenWords := by
  unfold Obligations.BeginEmitsItsFourteenWords
  intro cb s cols lines dotSize atLeast atMost
  obtain ⟨l, taken⟩ := exists_lineCount atLeast atMost
  have count := (lineCountOf_eq_some_iff lines l).1 taken
  rw [count, ← twoLineOf_eq, ← fontOf_eq]
  exact ⟨displayAfterBegin l cols dotSize, hostCall_begin cb s cols dotSize taken,
    rfl, rfl, rfl, rfl, rfl, rfl, rfl, rfl, rfl⟩

/-- Settles O41: no line count is made of the argument. -/
theorem beginRefusesOtherLineCounts : Obligations.BeginRefusesOtherLineCounts := by
  unfold Obligations.BeginRefusesOtherLineCounts
  intro cb s cols lines dotSize outside
  apply hostCall_of_refuses
  simp only [hostAnswer, (lineCountOf_eq_none_iff lines).2 outside]

/-- Without a display state every LCD operation has one answer (R287). -/
theorem hostAnswer_before_begin (cb : Config.CommandBytes) (op : HostOp) (lcd : allowedBeforeBegin op = false) :
    hostAnswer cb op none = .refuses .beforeBegin := by
  cases op with
  | begin | ledOn | ledOff => cases lcd
  | _ => rfl

/-- Settles O42: the LCD operations find no display state, and the LED operations ask for none. -/
theorem lcdOperationsNeedBegin : Obligations.LcdOperationsNeedBegin := by
  unfold Obligations.LcdOperationsNeedBegin
  intro cb s
  refine ⟨fun uninitialised op lcd => ?_, hostCall_of_emits (ops := [.ledon]) rfl,
    hostCall_of_emits (ops := [.ledoff]) rfl⟩
  have none : s.ds = none := by simpa [State.initialised] using uninitialised
  exact hostCall_of_refuses (none ▸ hostAnswer_before_begin cb op lcd)

/-- A change of a display-control flag changes `DS` where it holds a value (R200, R202). -/
theorem hostCall_ds_of_controlOp {cb : Config.CommandBytes} {op : HostOp} (f : DisplayState → DisplayState)
    (answer : ∀ ds, hostAnswer cb op ds = controlOp cb ds f) (s : State) : (hostCall cb op s).ds = s.ds.map f := by
  cases begun : s.ds with
  | none =>
    have refused : hostAnswer cb op s.ds = .refuses .beforeBegin := by rw [answer, begun]; rfl
    rw [hostCall_of_refuses refused, begun]
    rfl
  | some d =>
    rw [hostCall_of_controlOp begun f (answer s.ds)]
    rfl

/-- Settles O45: both calls write the one flag, and the later write wins. -/
theorem displayIsIdempotent : Obligations.DisplayIsIdempotent := by
  unfold Obligations.DisplayIsIdempotent
  intro cb s
  have display := hostCall_ds_of_controlOp (cb := cb) (op := .display) ({ · with display := true }) (fun _ => rfl)
  have noDisplay := hostCall_ds_of_controlOp (cb := cb) (op := .noDisplay) ({ · with display := false }) (fun _ => rfl)
  have twice (op : HostOp) : hostCalls cb [op, .display] s = hostCall cb .display (hostCall cb op s) := rfl
  simp only [twice, display, noDisplay, Option.map_map, Function.comp_def]
  exact ⟨trivial, trivial, fun none => by rw [none]; rfl, fun d begun => by simp [begun]⟩

/-- The row used is `DS.lines - 1` for a row that is too large (R211). -/
theorem clampRow_val (l : LineCount) (row : Byte) :
    (clampRow l row).val = if row.toNat ≥ l.count then l.count - 1 else row.toNat := by
  unfold clampRow
  split
  · rw [if_neg (by omega)]
  · rw [if_pos (by omega)]
    rfl

/-- Settles O46: the clamped row indexes the table, and the sum is one of bytes. -/
theorem setCursorClampsTheRow : Obligations.SetCursorClampsTheRow := by
  unfold Obligations.SetCursorClampsTheRow
  intro cb s d col row begun
  refine ⟨cursorAddress d.lines col row,
    hostCall_of_plainOp begun (fun d => [.cmd (cb.ddram (cursorAddress d.lines col row))]) rfl, ?_, ?_⟩
  · intro r base clamped inTable
    have table : ∀ k : Fin 4, ([0x00, 0x40, 0x14, 0x54] : List Byte)[k.val]? = some (Config.rowBase k) := by decide
    rw [clamped, ← clampRow_val, table, Option.some.injEq] at inTable
    rw [cursorAddress, inTable, BitVec.toNat_add]
  · cases d.lines <;> decide

/-- `slot & 7` keeps the slot modulo 8, and eight rows to a slot fit in the address (R213). -/
theorem glyphAddress_toNat (slot : Byte) : (glyphAddress slot).toNat = slot.toNat % 8 * 8 := by
  have masked (k : Nat) : k &&& 7 = k % 8 := Nat.and_two_pow_sub_one_eq_mod k 3
  have value : (glyphAddress slot).toNat = slot.toNat % 64 % 8 * 8 % 64 := by simp [glyphAddress, masked]
  omega

/-- Settles O47: the call only sends words, one for the address and one for each row of the glyph. -/
theorem createCharMasksTheSlot : Obligations.CreateCharMasksTheSlot := by
  unfold Obligations.CreateCharMasksTheSlot
  intro cb s slot glyph initialised
  obtain ⟨d, begun⟩ := (initialised_iff s).1 initialised
  refine ⟨glyphAddress slot, (glyph.toList.map Instr.write).map encode,
    hostCall_of_plainOp begun (fun _ => .cmd (cb.cgram (glyphAddress slot)) :: glyph.toList.map Instr.write) rfl,
    glyphAddress_toNat slot, by simp, fun k => ?_⟩
  simp [encode_write]

/-! The host conditions on the words of operations (R284, R286, R287). -/

@[simp] theorem decode_encode (i : Instr) : decode (encode i) = .op i := decodeOfEncodeGivesTheInstruction i

@[simp] theorem encode_inj (i j : Instr) : encode i = encode j ↔ i = j :=
  ⟨fun same => by simpa using congrArg decode same, congrArg encode⟩

@[simp] theorem isDelayOf_encode_delay (ns : Nat) (u : DelayUnit) (c : BitVec 11) :
    isDelayOf ns (encode (.delay u c)) = decide (ns ≤ delayNs u c) := by
  simp [isDelayOf]

theorem beginsFirst_of_startsWithBegin {cb : Config.CommandBytes} {ws : List Word}
    (starts : startsWithBegin cb ws = true) : beginsFirst cb ws = true := by
  cases ws with
  | nil => rfl
  | cons w ws => simp [beginsFirst, starts]

/-- The words of a `begin` start with a `begin`: its pair of function flags is one of the three (R181, R287). -/
theorem startsWithBegin_beginOps (cb : Config.CommandBytes) (l : LineCount) (cols dotSize : Byte) :
    startsWithBegin cb ((beginOps cb (displayAfterBegin l cols dotSize)).map encode) = true := by
  have flags : (twoLineOf l, fontOf l dotSize) ∈ [(false, false), (false, true), (true, false)] := by
    cases l <;> simp [twoLineOf, fontOf, Decidable.em]
  exact List.any_eq_true.2 ⟨_, flags, List.isPrefixOf_iff_prefix.2 List.prefix_rfl⟩

/-- The one clear among the words of `begin` has its delay, and no other word is a clear or a home (R284). -/
theorem clearWaits_beginOps (cb : Config.CommandBytes) (d : DisplayState)
    (funcset : ∀ two font, cb.funcset two font ≠ cb.clear ∧ cb.funcset two font ≠ cb.home)
    (dispctlClear : cb.dispctl d.display d.cursor d.blink ≠ cb.clear)
    (dispctlHome : cb.dispctl d.display d.cursor d.blink ≠ cb.home)
    (entryClear : cb.entry d.ltr d.autoscroll ≠ cb.clear) (entryHome : cb.entry d.ltr d.autoscroll ≠ cb.home) :
    clearWaits cb ((beginOps cb d).map encode) = true := by
  simp [beginOps, powerWait, forceIdle, negotiate4Bit, setFunction, sendDisplayControl, clearOps, sendEntryMode,
    clearWaits, funcset, dispctlClear, dispctlHome, entryClear, entryHome, delayNs, Config.tClear]

/-- The negotiation of `begin` has its three delays, and it is the only one (R286). -/
theorem negotiatesSlowly_beginOps (cb : Config.CommandBytes) (d : DisplayState) :
    negotiatesSlowly ((beginOps cb d).map encode) = true := by
  simp [beginOps, powerWait, forceIdle, negotiate4Bit, setFunction, sendDisplayControl, clearOps, sendEntryMode,
    negotiatesSlowly, negotiationWaits, isRaw3, delayNs, Config.tNeg1, Config.tNeg2, Config.tNeg3]

/-- Settles O50: the stream is the words of `begin`, and these meet the three conditions. -/
theorem beginMeetsTheHostConditions : Obligations.BeginMeetsTheHostConditions := by
  unfold Obligations.BeginMeetsTheHostConditions
  intro cb s cols lines dotSize empty atLeast atMost funcset dispctlClear dispctlHome entryClear entryHome
  obtain ⟨l, taken⟩ := exists_lineCount atLeast atMost
  rw [hostCall_begin cb s cols dotSize taken, empty, List.nil_append, hostOK,
    clearWaits_beginOps cb _ funcset dispctlClear dispctlHome entryClear entryHome, negotiatesSlowly_beginOps,
    beginsFirst_of_startsWithBegin (startsWithBegin_beginOps cb l cols dotSize)]
  rfl

end Sys2Proof.HostLayer

/-! Several displays: lines kept apart are lines on which each one steps alone (R252). -/

namespace Sys2Proof.Displays

open Sys2Proof.Machine Sys2Proof.Claims

/-- The check of the list and the statement about every pair agree (R252, log 14). -/
theorem separateLines_iff (sys : List DisplayInstance) : SeparateLines sys ↔ linesApart sys = true := by
  rw [linesApart_iff_pairwise, List.pairwise_iff_getElem]
  constructor
  · intro separate i j hi hj before
    exact (DisplayInstance.apart_iff _ _).2
      (separate i j _ _ before.ne (List.getElem?_eq_getElem hi) (List.getElem?_eq_getElem hj))
  · intro apart i j d e different hd he
    obtain ⟨hi, rfl⟩ := List.getElem?_eq_some_iff.1 hd
    obtain ⟨hj, rfl⟩ := List.getElem?_eq_some_iff.1 he
    refine (DisplayInstance.apart_iff _ _).1 ?_
    rcases Nat.lt_or_gt_of_ne different with before | after
    · exact apart i j hi hj before
    · exact DisplayInstance.apart_symm (apart j i hj hi after)

/-- A step answers a next list exactly as the named display steps, on lines kept apart (R252). -/
theorem stepInstance_eq_next_iff (sys sys' : List DisplayInstance) (k : Nat) :
    stepInstance sys k = .next sys' ↔
      ∃ d s, linesApart sys = true ∧ sys[k]? = some d ∧ step d.state = .next s ∧
        sys' = sys.set k { d with state := s } := by
  constructor
  · intro next
    obtain ⟨-, h⟩ | ⟨-, -, h⟩ | ⟨d, s, apart, found, steps, h⟩ | ⟨d, r, -, -, -, h⟩ | ⟨d, r, -, -, -, h⟩ :=
      stepInstance_cases sys k <;> rw [h] at next
    case inr.inr.inl =>
      obtain rfl : sys.set k { d with state := s } = sys' := by simpa using next
      exact ⟨d, s, apart, found, steps, rfl⟩
    all_goals cases next
  · rintro ⟨d, s, apart, found, steps, rfl⟩
    simp [stepInstance, apart, found, steps]

theorem stepInstance_of_shared {sys : List DisplayInstance} (shared : linesApart sys = false) (k : Nat) :
    stepInstance sys k = .refused .sharedLine := by
  simp [stepInstance, shared]

/-- A step keeps every other display and every pin (R252). -/
theorem stepInstance_frame {sys sys' : List DisplayInstance} {k : Nat} (next : stepInstance sys k = .next sys') :
    (∀ j, j ≠ k → sys'[j]? = sys[j]?) ∧ (SeparateLines sys' ∧ SeparateLines sys) ∧
      ∃ d e, sys[k]? = some d ∧ sys'[k]? = some e ∧ step d.state = .next e.state ∧ e.pins = d.pins := by
  obtain ⟨d, s, apart, found, steps, rfl⟩ := (stepInstance_eq_next_iff sys sys' k).1 next
  have kept : linesApart (sys.set k { d with state := s }) = linesApart sys := linesApart_set sys k d _ found rfl
  obtain ⟨inside, -⟩ := List.getElem?_eq_some_iff.1 found
  refine ⟨fun j other => List.getElem?_set_ne (Ne.symm other), ?_, d, { d with state := s }, found,
    List.getElem?_set_self inside, steps, rfl⟩
  rw [separateLines_iff, separateLines_iff, kept]
  exact ⟨apart, apart⟩

theorem addInstance_eq_none_iff (sys : List DisplayInstance) (d : DisplayInstance) :
    addInstance sys d = none ↔ ∃ e ∈ sys, ∃ p, p ∈ d.pins ∧ p ∈ e.pins := by
  have shares (e : DisplayInstance) : d.apart e = false ↔ ∃ p, p ∈ d.pins ∧ p ∈ e.pins := by
    rw [← Bool.not_eq_true, DisplayInstance.apart_iff]
    push Not
    rfl
  simp only [addInstance, ite_eq_right_iff, reduceCtorEq, imp_false, Bool.not_eq_true, List.all_eq_false, ← shares]

/-- An added display shares no line with one of the list, so the lines stay apart (R252). -/
theorem addInstance_eq_some {sys sys' : List DisplayInstance} {d : DisplayInstance} (separate : SeparateLines sys)
    (added : addInstance sys d = some sys') : SeparateLines sys' ∧ sys' = sys ++ [d] := by
  have apart : sys.all d.apart = true := by
    by_contra shared
    simp [addInstance, shared] at added
  obtain rfl : sys ++ [d] = sys' := by simpa [addInstance, apart] using added
  rw [separateLines_iff, linesApart_iff_pairwise] at separate ⊢
  refine ⟨List.pairwise_append.2 ⟨separate, List.pairwise_singleton _ _, fun e he x hx => ?_⟩, rfl⟩
  obtain rfl := List.mem_singleton.1 hx
  exact DisplayInstance.apart_symm (List.all_eq_true.1 apart e he)

/-- Settles O51: the five clauses, each one of the facts above. -/
theorem instancesShareNothing : Obligations.InstancesShareNothing := by
  unfold Obligations.InstancesShareNothing
  refine ⟨fun sys sys' k next => stepInstance_frame next, fun sys k d s separate found steps => ?_,
    fun sys shared k => ?_, addInstance_eq_none_iff,
    fun sys sys' d separate added => addInstance_eq_some separate added⟩
  · obtain ⟨inside, -⟩ := List.getElem?_eq_some_iff.1 found
    exact ⟨_, (stepInstance_eq_next_iff sys _ k).2 ⟨d, s, (separateLines_iff sys).1 separate, found, steps, rfl⟩,
      List.getElem?_set_self inside⟩
  · rw [separateLines_iff, Bool.not_eq_true] at shared
    exact stepInstance_of_shared shared k

end Sys2Proof.Displays
